-- ==== Sys2Proof/Word.lean ====
section
/-! DEFINITION. The widths of the machine: the 32-bit word (rule R6, `XLEN`), the byte, the 5-bit register
field and the 6-bit opcode/funct field (rules R71 to R73). -/

namespace Sys2Proof

/-- A register, a data word, an instruction word or a program counter: a 32-bit pattern (rules R6, R9, R24). -/
abbrev Word := BitVec 32

/-- One byte of the memory's layout (assumption log entry 2). -/
abbrev Byte := BitVec 8

/-- A 5-bit register field `rs`, `rt` or `rd`; every value names a register (rule R79). -/
abbrev RegIdx := BitVec 5

/-- The 6-bit `opcode` and `funct` fields (rules R71, R72). -/
abbrev Field6 := BitVec 6

/-- The 16-bit immediate field (rule R73). -/
abbrev Imm16 := BitVec 16

/-- The 26-bit J-format field (rule R74). -/
abbrev Target26 := BitVec 26

end Sys2Proof
end

