-- ==== Sys2Proof/Machine/Flags.lean ====
section
/-! DEFINITION. The computations on values. The core has no flags and no condition codes (rule R30): a compare gives the
word 1 or 0, a branch tests a register directly, and overflow is recorded nowhere. The unsigned sums and differences
are computed exactly and then narrowed modulo 2^32 (rule R9). -/

namespace Sys2Proof.Machine

/-- `b ? 1 : 0` (rule R10). -/
def boolWord (b : Bool) : Word := if b then 1#32 else 0#32

/-- `(unsigned(a) + unsigned(b)) mod 2^32` (rules R123, R171). -/
def addUnsigned (a b : Word) : Word := BitVec.ofNat 32 (a.toNat + b.toNat)

/-- `(unsigned(a) - unsigned(b)) mod 2^32` (rule R122). -/
def subUnsigned (a b : Word) : Word := BitVec.ofInt 32 ((a.toNat : Int) - (b.toNat : Int))

/-- The boolean AND of rules R124 and R172: 1 when both operands are nonzero, never a bit mask. -/
def boolAnd (a b : Word) : Word := boolWord (a != 0#32 && b != 0#32)

/-- `signed(a) < signed(b)` as a word (rules R128, R175). -/
def setLess (a b : Word) : Word := boolWord (decide (a.toInt < b.toInt))

/-- `unsigned(a) < unsigned(b)` as a word (rules R129, R176). -/
def setLessUnsigned (a b : Word) : Word := boolWord (decide (a.toNat < b.toNat))

/-- `b << n` (rule R10). -/
def shiftLeft (b : Word) (n : Nat) : Word := b <<< n

/-- `b >>a n` (rule R10): all four right shifts are arithmetic (D8). -/
def shiftRight (b : Word) (n : Nat) : Word := b.sshiftRight n

/-- `imm16 ∥ 0x0000`, the immediate in the upper half over a zero lower half (rule R177). -/
def upperHalf (imm : Imm16) : Word := imm.setWidth 32 <<< 16

/-- `signed(a) > 0` (rule R203). -/
def isPositive (a : Word) : Bool := decide (0 < a.toInt)

/-- `signed(a) <= 0` (rule R204). -/
def isNotPositive (a : Word) : Bool := decide (a.toInt ≤ 0)

/-- `signed(a) >= 0` (rules R206, R207). -/
def isNotNegative (a : Word) : Bool := decide (0 ≤ a.toInt)

/-- `signed(a) < 0` (rules R208, R209). -/
def isNegative (a : Word) : Bool := decide (a.toInt < 0)

end Sys2Proof.Machine
end

