-- ==== Sys2Proof/Config.lean ====
section
/-! DEFINITION. The parameters of 00_scope.md: the fixed ones (rule R6), the ones the source leaves open with the
value this hardware takes (rule R7), and the load image that the Configuration Loader hands the core (rule R290).
No parameter is a free value: the spec fixes every one (assumption log entry 4). -/

namespace Sys2Proof

/-! ## Fixed parameters (rule R6) -/

/-- `MEM_WORDS`: the data memory's size in words. -/
abbrev Config.memWords : Nat := 250

/-- `MEM_MAX_ADDR`: the highest valid data byte address. -/
abbrev Config.memMaxAddr : Nat := 996

/-- `MEM_ADDR_STEP`: data addresses are used only at multiples of this. -/
abbrev Config.memAddrStep : Nat := 4

/-- `CODE_MAX`: the capacity of the code store in words. -/
abbrev Config.codeMax : Nat := 1024

/-! ## Open parameters and this hardware's values (rule R7) -/

/-- `ZERO_REG`: whether register 0 is hardwired (reads 0, discards writes) or an ordinary register (D1). -/
inductive ZeroReg where
  | hardwired
  | writable
  deriving DecidableEq, Repr

/-- `SHAMT_SOURCE`: where SLL, SRL and SRA take their amount from: `x[funct]` or the shamt field (D6). -/
inductive ShamtSource where
  | regFunct
  | shamtField
  deriving DecidableEq, Repr

/-- `SHIFT_RANGE`: what a shift amount outside 0..31 does: fault, or be taken modulo 32 (D7). -/
inductive ShiftRange where
  | fault
  | mask5
  deriving DecidableEq, Repr

/-- `MISALIGNED`: what a data address that is no multiple of 4 does: fault, or have its index truncated (D11). -/
inductive Misaligned where
  | fault
  | truncate
  deriving DecidableEq, Repr

/-- `JALR_ORDER`: whether JALR reads `x[rs]` before or after it writes the link register (D14). -/
inductive JalrOrder where
  | operandsFirst
  | linkFirst
  deriving DecidableEq, Repr

/-- `ZERO_REG = HARDWIRED` (D1). -/
abbrev Config.zeroReg : ZeroReg := .hardwired

/-- `SHAMT_SOURCE = REG_FUNCT` (D6). -/
abbrev Config.shamtSource : ShamtSource := .regFunct

/-- `SHIFT_RANGE = FAULT` (D7). -/
abbrev Config.shiftRange : ShiftRange := .fault

/-- `MISALIGNED = FAULT` (D11). -/
abbrev Config.misaligned : Misaligned := .fault

/-- `J_OFFSET_SIGNED = true` (D13). -/
abbrev Config.jOffsetSigned : Bool := true

/-- `JALR_ORDER = OPERANDS_FIRST` (D14). -/
abbrev Config.jalrOrder : JalrOrder := .operandsFirst

/-- `CYCLE_START = 1`: the number of the first trace line (D16). -/
abbrev Config.cycleStart : Nat := 1

/-! ## The load image (rule R290) -/

/-- What the Configuration Loader supplies: register pairs (index, value), memory pairs (byte address, value) and
the instruction words in order. A later pair for the same index or address wins (rule R292). -/
structure LoadImage where
  regs : List (Nat × Word)
  mem  : List (Nat × Word)
  code : List Word
  deriving DecidableEq, Repr

end Sys2Proof
end

