-- ==== Sys2Proof/Syntax.lean ====
section
/-! DEFINITION. The instruction set: one constructor per row of opcode_table.json (rule R2, 38 instructions), in
the source's order. Operands are the fields the assembly form of rule R86 names, in that form's order; every field
has exactly the width of its encoding, so no operand can be out of range (rule R79). -/

namespace Sys2Proof

/-- The 38 instructions of rule R2. SLL, SRA and SRL keep the shamt field `sa` their assembly form writes, although
it has no effect while `SHAMT_SOURCE = REG_FUNCT` (rule R86). -/
inductive Instr where
  | add    (rd rs rt : RegIdx)
  | sub    (rd rs rt : RegIdx)
  | subu   (rd rs rt : RegIdx)
  | addu   (rd rs rt : RegIdx)
  | and    (rd rs rt : RegIdx)
  | or     (rd rs rt : RegIdx)
  | xor    (rd rs rt : RegIdx)
  | nor    (rd rs rt : RegIdx)
  | slt    (rd rs rt : RegIdx)
  | sltu   (rd rs rt : RegIdx)
  | sll    (rd rt : RegIdx) (sa : BitVec 5)
  | sllv   (rd rt rs : RegIdx)
  | sra    (rd rt : RegIdx) (sa : BitVec 5)
  | srl    (rd rt : RegIdx) (sa : BitVec 5)
  | srav   (rd rt rs : RegIdx)
  | srlv   (rd rt rs : RegIdx)
  | jr     (rs : RegIdx)
  | jalr   (rs : RegIdx)
  | addi   (rt rs : RegIdx) (imm : Imm16)
  | addiu  (rt rs : RegIdx) (imm : Imm16)
  | andi   (rt rs : RegIdx) (imm : Imm16)
  | ori    (rt rs : RegIdx) (imm : Imm16)
  | xori   (rt rs : RegIdx) (imm : Imm16)
  | slti   (rt rs : RegIdx) (imm : Imm16)
  | sltiu  (rt rs : RegIdx) (imm : Imm16)
  | lui    (rt : RegIdx) (imm : Imm16)
  | lw     (rt rs : RegIdx) (imm : Imm16)
  | sw     (rt rs : RegIdx) (imm : Imm16)
  | beq    (rs rt : RegIdx) (off : Imm16)
  | bne    (rs rt : RegIdx) (off : Imm16)
  | bgtz   (rs : RegIdx) (off : Imm16)
  | blez   (rs : RegIdx) (off : Imm16)
  | bgez   (rs : RegIdx) (off : Imm16)
  | bgezal (rs : RegIdx) (off : Imm16)
  | bltz   (rs : RegIdx) (off : Imm16)
  | bltzal (rs : RegIdx) (off : Imm16)
  | j      (target : Target26)
  | jal    (target : Target26)
  deriving DecidableEq, Repr

end Sys2Proof
end

