-- ==== Sys2Proof/WellFormed.lean ====
section
/-! DEFINITION. Well-formedness. An instruction needs no check: every field's type has exactly the width of its
encoding, and every value of a register field is a register (rule R79). A load image needs the loader's checks of
rule R291. -/

namespace Sys2Proof

/-- Every instruction term is well-formed: no register index, immediate or offset can be out of range (rule R79). -/
def Instr.wf (_ : Instr) : Bool := true

/-- Rule R291: "every register index is in 0 to 31". -/
def LoadImage.regsOk (im : LoadImage) : Bool := im.regs.all fun p => decide (p.1 < 32)

/-- Rule R291: "every memory address is a multiple of 4 in 0 to 996". -/
def LoadImage.memOk (im : LoadImage) : Bool :=
  im.mem.all fun p => decide (p.1 % Config.memAddrStep = 0) && decide (p.1 ≤ Config.memMaxAddr)

/-- Rule R291: "the code has at most 1024 words". -/
def LoadImage.codeOk (im : LoadImage) : Bool := decide (im.code.length ≤ Config.codeMax)

/-- Rule R291: the loads that are admitted. -/
def LoadImage.wf (im : LoadImage) : Bool := im.regsOk && im.memOk && im.codeOk

end Sys2Proof
end

