-- ==== Sys2Proof/Decode.lean ====
section
/-! DEFINITION. The instruction decoder (30_encoding.md): field extraction of all three formats from one word
(rule R75), the dispatch on opcode, funct and the opcode-1 `rt` field (rules R80 to R83, R105), and after it the
encoder (rule R88). Every word is read; a word that selects no instruction is named by what was not recognised,
and is executed as the no-op of rule R106. -/

namespace Sys2Proof

/-! ## Field extraction (rules R71 to R78) -/

/-- The three instruction formats. -/
inductive Format where
  | R
  | I
  | J
  deriving DecidableEq, Repr

/-- Rule R76: the format, by the explicit comparisons on the opcode alone (C4). -/
def classify (opcode : Field6) : Format :=
  if opcode = 0#6 then .R
  else if opcode = 2#6 ∨ opcode = 3#6 then .J
  else .I

/-- `bits[31:26]` (rule R71). -/
def opcodeOf (w : Word) : Field6 := w.extractLsb' 26 6
/-- `bits[25:21]` (rule R72). -/
def rsOf (w : Word) : RegIdx := w.extractLsb' 21 5
/-- `bits[20:16]` (rule R72). -/
def rtOf (w : Word) : RegIdx := w.extractLsb' 16 5
/-- `bits[15:11]` (rule R72). -/
def rdOf (w : Word) : RegIdx := w.extractLsb' 11 5
/-- `bits[10:6]` (rule R72). -/
def shamtOf (w : Word) : BitVec 5 := w.extractLsb' 6 5
/-- `bits[5:0]` (rule R72). -/
def functOf (w : Word) : Field6 := w.extractLsb' 0 6
/-- `bits[15:0]` (rule R73). -/
def immOf (w : Word) : Imm16 := w.extractLsb' 0 16
/-- `bits[25:0]` (rule R74). -/
def targetOf (w : Word) : Target26 := w.extractLsb' 0 26

/-- Rule R77: `sext_16(imm16)`, for every I-format instruction, the logical ones too. -/
def simm (imm : Imm16) : Word := imm.signExtend 32

/-- Rule R78: `Ext26`, by the parameter `J_OFFSET_SIGNED`. -/
def ext26 (signed : Bool) (target : Target26) : Word :=
  if signed then target.signExtend 32 else target.zeroExtend 32

/-- Rule R78: the J-format offset of this hardware. -/
def off26 (target : Target26) : Word := ext26 Config.jOffsetSigned target

/-- Rule R75: the decoded word, every field of every format beside the format tag. -/
structure DecodedWord where
  format : Format
  opcode : Field6
  rs     : RegIdx
  rt     : RegIdx
  rd     : RegIdx
  shamt  : BitVec 5
  funct  : Field6
  imm16  : Imm16
  simm   : Word
  target : Target26
  off26  : Word
  deriving DecidableEq, Repr

/-- Rule R75: `Decode(w)`, total. -/
def decodeWord (w : Word) : DecodedWord where
  format := classify (opcodeOf w)
  opcode := opcodeOf w
  rs     := rsOf w
  rt     := rtOf w
  rd     := rdOf w
  shamt  := shamtOf w
  funct  := functOf w
  imm16  := immOf w
  simm   := simm (immOf w)
  target := targetOf w
  off26  := off26 (targetOf w)

/-! ## Dispatch (rules R80 to R83, R105) -/

/-- Why a word selects no instruction: an unrecognised funct (rule R81), opcode (rule R82) or opcode-1 `rt`
sub-code (rule R83). -/
inductive Unrecognised where
  | funct  (f : Field6)
  | opcode (o : Field6)
  | subcode (rt : RegIdx)
  deriving DecidableEq, Repr

/-- The dispatch result: one of the 38 instructions, or the explicit `Unknown` case that rule R106 allows. -/
inductive Decoded where
  | instr   (i : Instr)
  | unknown (why : Unrecognised)
  deriving DecidableEq, Repr

/-- The R-format arm of rule R105, by rule R80's R table; only `funct` is looked at (rule R81). -/
def selectR (d : DecodedWord) : Decoded :=
  match d.funct.toNat with
  | 0x00 => .instr (.sll d.rd d.rt d.shamt)
  | 0x02 => .instr (.srl d.rd d.rt d.shamt)
  | 0x03 => .instr (.sra d.rd d.rt d.shamt)
  | 0x04 => .instr (.sllv d.rd d.rt d.rs)
  | 0x06 => .instr (.srlv d.rd d.rt d.rs)
  | 0x07 => .instr (.srav d.rd d.rt d.rs)
  | 0x08 => .instr (.jr d.rs)
  | 0x09 => .instr (.jalr d.rs)
  | 0x20 => .instr (.add d.rd d.rs d.rt)
  | 0x21 => .instr (.addu d.rd d.rs d.rt)
  | 0x22 => .instr (.sub d.rd d.rs d.rt)
  | 0x23 => .instr (.subu d.rd d.rs d.rt)
  | 0x24 => .instr (.and d.rd d.rs d.rt)
  | 0x25 => .instr (.or d.rd d.rs d.rt)
  | 0x26 => .instr (.xor d.rd d.rs d.rt)
  | 0x27 => .instr (.nor d.rd d.rs d.rt)
  | 0x2A => .instr (.slt d.rd d.rs d.rt)
  | 0x2B => .instr (.sltu d.rd d.rs d.rt)
  | _    => .unknown (.funct d.funct)

/-- The opcode-1 family, by its `rt` sub-code (rules R80, R83, R205). -/
def selectSubcode (d : DecodedWord) : Decoded :=
  match d.rt.toNat with
  | 0  => .instr (.bltz d.rs d.imm16)
  | 1  => .instr (.bgez d.rs d.imm16)
  | 16 => .instr (.bltzal d.rs d.imm16)
  | 17 => .instr (.bgezal d.rs d.imm16)
  | _  => .unknown (.subcode d.rt)

/-- The I-format arm of rule R105, by rule R80's I table; only `opcode` (and `rt` for opcode 1) is looked at
(rule R82). -/
def selectI (d : DecodedWord) : Decoded :=
  match d.opcode.toNat with
  | 0x01 => selectSubcode d
  | 0x04 => .instr (.beq d.rs d.rt d.imm16)
  | 0x05 => .instr (.bne d.rs d.rt d.imm16)
  | 0x06 => .instr (.blez d.rs d.imm16)
  | 0x07 => .instr (.bgtz d.rs d.imm16)
  | 0x08 => .instr (.addi d.rt d.rs d.imm16)
  | 0x09 => .instr (.addiu d.rt d.rs d.imm16)
  | 0x0A => .instr (.slti d.rt d.rs d.imm16)
  | 0x0B => .instr (.sltiu d.rt d.rs d.imm16)
  | 0x0C => .instr (.andi d.rt d.rs d.imm16)
  | 0x0D => .instr (.ori d.rt d.rs d.imm16)
  | 0x0E => .instr (.xori d.rt d.rs d.imm16)
  | 0x0F => .instr (.lui d.rt d.imm16)
  | 0x23 => .instr (.lw d.rt d.rs d.imm16)
  | 0x2B => .instr (.sw d.rt d.rs d.imm16)
  | _    => .unknown (.opcode d.opcode)

/-- The J-format arm of rule R105. -/
def selectJ (d : DecodedWord) : Decoded :=
  match d.opcode.toNat with
  | 2 => .instr (.j d.target)
  | 3 => .instr (.jal d.target)
  | _ => .unknown (.opcode d.opcode)

/-- Rule R105: the dispatch on the decoded format. -/
def select (d : DecodedWord) : Decoded :=
  match d.format with
  | .R => selectR d
  | .I => selectI d
  | .J => selectJ d

/-- The instruction a word selects, or what in it was not recognised; total on all 2^32 words (rule R84). -/
def decode (w : Word) : Decoded := select (decodeWord w)

/-- The host's question: the instruction this decoder reads from the low `nbits` bits of `w`. An instruction is one
32-bit word (rule R70), so an opcode-table row's number is the word itself. -/
def decodeTableWord (nbits w : Nat) : Option Instr :=
  match decode (BitVec.ofNat 32 (w % 2 ^ nbits)) with
  | .instr i => some i
  | .unknown _ => none

/-! ## The encoder (rule R88) -/

/-- Rule R88: `EncR(funct, rd, rs, rt, shamt)`, the layout of rule R72 with opcode 0. -/
def encR (funct : Field6) (rd rs rt : RegIdx) (shamt : BitVec 5) : Word :=
  (0#32 <<< 26) ||| (rs.setWidth 32 <<< 21) ||| (rt.setWidth 32 <<< 16) ||| (rd.setWidth 32 <<< 11) |||
    (shamt.setWidth 32 <<< 6) ||| funct.setWidth 32

/-- Rule R88: `EncI(opcode, rt, rs, imm)`, the layout of rule R73. -/
def encI (opcode : Field6) (rt rs : RegIdx) (imm : Imm16) : Word :=
  (opcode.setWidth 32 <<< 26) ||| (rs.setWidth 32 <<< 21) ||| (rt.setWidth 32 <<< 16) ||| imm.setWidth 32

/-- Rule R88: `EncJ(opcode, off)`, the layout of rule R74. -/
def encJ (opcode : Field6) (target : Target26) : Word :=
  (opcode.setWidth 32 <<< 26) ||| target.setWidth 32

/-- The word of an instruction, by rule R80's tables; a field its assembly form does not name is 0 (rule R86). -/
def encode : Instr → Word
  | .add rd rs rt    => encR 0x20#6 rd rs rt 0#5
  | .sub rd rs rt    => encR 0x22#6 rd rs rt 0#5
  | .subu rd rs rt   => encR 0x23#6 rd rs rt 0#5
  | .addu rd rs rt   => encR 0x21#6 rd rs rt 0#5
  | .and rd rs rt    => encR 0x24#6 rd rs rt 0#5
  | .or rd rs rt     => encR 0x25#6 rd rs rt 0#5
  | .xor rd rs rt    => encR 0x26#6 rd rs rt 0#5
  | .nor rd rs rt    => encR 0x27#6 rd rs rt 0#5
  | .slt rd rs rt    => encR 0x2A#6 rd rs rt 0#5
  | .sltu rd rs rt   => encR 0x2B#6 rd rs rt 0#5
  | .sll rd rt sa    => encR 0x00#6 rd 0#5 rt sa
  | .sllv rd rt rs   => encR 0x04#6 rd rs rt 0#5
  | .sra rd rt sa    => encR 0x03#6 rd 0#5 rt sa
  | .srl rd rt sa    => encR 0x02#6 rd 0#5 rt sa
  | .srav rd rt rs   => encR 0x07#6 rd rs rt 0#5
  | .srlv rd rt rs   => encR 0x06#6 rd rs rt 0#5
  | .jr rs           => encR 0x08#6 0#5 rs 0#5 0#5
  | .jalr rs         => encR 0x09#6 0#5 rs 0#5 0#5
  | .addi rt rs imm  => encI 0x08#6 rt rs imm
  | .addiu rt rs imm => encI 0x09#6 rt rs imm
  | .andi rt rs imm  => encI 0x0C#6 rt rs imm
  | .ori rt rs imm   => encI 0x0D#6 rt rs imm
  | .xori rt rs imm  => encI 0x0E#6 rt rs imm
  | .slti rt rs imm  => encI 0x0A#6 rt rs imm
  | .sltiu rt rs imm => encI 0x0B#6 rt rs imm
  | .lui rt imm      => encI 0x0F#6 rt 0#5 imm
  | .lw rt rs imm    => encI 0x23#6 rt rs imm
  | .sw rt rs imm    => encI 0x2B#6 rt rs imm
  | .beq rs rt off   => encI 0x04#6 rt rs off
  | .bne rs rt off   => encI 0x05#6 rt rs off
  | .bgtz rs off     => encI 0x07#6 0#5 rs off
  | .blez rs off     => encI 0x06#6 0#5 rs off
  | .bgez rs off     => encI 0x01#6 1#5 rs off
  | .bgezal rs off   => encI 0x01#6 17#5 rs off
  | .bltz rs off     => encI 0x01#6 0#5 rs off
  | .bltzal rs off   => encI 0x01#6 16#5 rs off
  | .j target        => encJ 0x02#6 target
  | .jal target      => encJ 0x03#6 target

/-- The format of an instruction (rule R2). -/
def formatOf : Instr → Format
  | .add _ _ _ | .sub _ _ _ | .subu _ _ _ | .addu _ _ _ | .and _ _ _ | .or _ _ _ | .xor _ _ _ | .nor _ _ _
  | .slt _ _ _ | .sltu _ _ _ | .sll _ _ _ | .sllv _ _ _ | .sra _ _ _ | .srl _ _ _ | .srav _ _ _ | .srlv _ _ _
  | .jr _ | .jalr _ => .R
  | .addi _ _ _ | .addiu _ _ _ | .andi _ _ _ | .ori _ _ _ | .xori _ _ _ | .slti _ _ _ | .sltiu _ _ _ | .lui _ _
  | .lw _ _ _ | .sw _ _ _ | .beq _ _ _ | .bne _ _ _ | .bgtz _ _ | .blez _ _ | .bgez _ _ | .bgezal _ _
  | .bltz _ _ | .bltzal _ _ => .I
  | .j _ | .jal _ => .J

/-- The bits of the word an instruction of this kind gives a meaning to: its opcode, funct or sub-code and its named
fields (rules R80 to R83, R86). The other bits are never checked. -/
def namedBits : Instr → Word
  | .add _ _ _ | .sub _ _ _ | .subu _ _ _ | .addu _ _ _ | .and _ _ _ | .or _ _ _ | .xor _ _ _ | .nor _ _ _
  | .slt _ _ _ | .sltu _ _ _ | .sllv _ _ _ | .srav _ _ _ | .srlv _ _ _ => 0xFFFFF83F#32
  | .sll _ _ _ | .sra _ _ _ | .srl _ _ _ => 0xFC1FFFFF#32
  | .jr _ | .jalr _ => 0xFFE0003F#32
  | .lui _ _ => 0xFC1FFFFF#32
  | .bgtz _ _ | .blez _ _ => 0xFFE0FFFF#32
  | .addi _ _ _ | .addiu _ _ _ | .andi _ _ _ | .ori _ _ _ | .xori _ _ _ | .slti _ _ _ | .sltiu _ _ _
  | .lw _ _ _ | .sw _ _ _ | .beq _ _ _ | .bne _ _ _ | .bgez _ _ | .bgezal _ _ | .bltz _ _ | .bltzal _ _
  | .j _ | .jal _ => 0xFFFFFFFF#32

end Sys2Proof
end

