-- ==== Sys2Proof/Machine/State.lean ====
section
/-! DEFINITION. The state of the core (10_state.md), all of it as plain data; why a step can stop; the state after
reset (rule R37). INVENTORY.md's State section lists every field with its rule. -/

namespace Sys2Proof.Machine

/-- The five stage names of a trace entry (rule R231). -/
inductive Stage where
  | IF
  | ID
  | EX
  | MEM
  | WB
  deriving DecidableEq, Repr

/-- A trace entry: the triple (cycle, instr_no, stage) of rule R231. -/
structure TraceEntry where
  cycle   : Nat
  instrNo : Nat
  stage   : Stage
  deriving DecidableEq, Repr

/-- The stage-activity report `{mem, wb}` of rule R103. -/
structure Report where
  mem : Bool
  wb  : Bool
  deriving DecidableEq, Repr

/-- Rule R103: "Both flags start false". -/
def Report.idle : Report := ⟨false, false⟩

/-- The run state (rule R33). -/
inductive RunState where
  | running
  | halted
  | faulted
  deriving DecidableEq, Repr

/-- The four fault kinds of rule R261. -/
inductive FaultKind where
  | misalignedAccess
  | outOfBounds
  | shiftOutOfRange
  | pcOutOfBounds
  deriving DecidableEq, Repr

/-- The fault record `{kind, info, fault_pc, instr_no}` of rules R33 and R262. `info` is the recorded value read as a
signed integer (assumption log entry 8). -/
structure FaultRecord where
  kind    : FaultKind
  info    : Int
  faultPc : Word
  instrNo : Nat
  deriving DecidableEq, Repr

/-- The data memory as the list of its nonzero bytes by byte address, strictly rising (assumption log entries 2
and 3). -/
abbrev Memory := List Host.Cell

/-- The complete state of the core (rule R37), and the stage-activity report that is under way (rule R36). -/
structure State where
  /-- The register file's 32 slots (rule R20); slot 0 is read through the zero bypass (rule R21). -/
  regs    : Vector Word 32
  /-- The program counter, a word index into `code` (rule R24). -/
  pc      : Word
  /-- The data memory (rule R29). -/
  mem     : Memory
  /-- The code store; its length is `L` (rule R28). -/
  code    : List Word
  /-- The run state (rule R33). -/
  run     : RunState
  /-- The fault record, none unless the machine is faulted (rules R33, R37). -/
  fault   : Option FaultRecord
  /-- `C`: the number the next trace line will carry (rule R34). -/
  cycle   : Nat
  /-- `N`: the number of the instruction being traced (rule R34). -/
  instrNo : Nat
  /-- `T`: the trace entries emitted so far, oldest first (rule R35). -/
  trace   : List TraceEntry
  /-- The report the execution engine hands to the tracer; idle between iterations (rules R36, R100, R103). -/
  report  : Report
  deriving DecidableEq, Repr

/-- Why an execution or a step does not answer a next state. -/
inductive Fault where
  /-- Rule R11's `raise Fault(kind, info)`: the execution engine's second outcome (rule R100), raised by LW, SW and the
  shifts (rule R261). Safe and exact: the run loop turns it into the FAULTED state of rule R262, so that `step` itself
  never answers it. -/
  | raised (kind : FaultKind) (info : Int)
  /-- Raised by `step` on a HALTED machine, which is terminal and has no next step (rule R235). Safe: the machine
  stops. -/
  | haltedMachine
  /-- Raised by `step` on a FAULTED machine, which is terminal and has no next step (rule R235). Safe: the machine
  stops. -/
  | faultedMachine
  deriving DecidableEq, Repr

/-- Instructions without a meaning. -/
inductive Refusal where
  /-- Raised by an arm of `exec` whose instruction has no meaning yet; no arm is so now. Safe: the machine stops. -/
  | notModelled (mnemonic : String)
  deriving DecidableEq, Repr

/-- What an execution or a step answers. -/
abbrev Result := Host.Outcome State Fault Refusal

/-- The state after reset (rules R37, R292), for the configuration that gives nothing (assumption log entry 1). -/
def State.reset : State where
  regs    := Vector.replicate 32 0#32
  pc      := 0#32
  mem     := []
  code    := []
  run     := .running
  fault   := none
  cycle   := Config.cycleStart
  instrNo := 1
  trace   := []
  report  := .idle

end Sys2Proof.Machine
end

