-- ==== Sys2Proof/Machine/Ops.lean ====
section
/-! DEFINITION. The named operations over the register file, the program counter, the data memory and the run state,
each written once: the register ports (40_dispatch.md), the memory primitives (20_memory.md), and the taking of a
fault (60_exceptions.md). There is no return from a fault: rule R266. -/

namespace Sys2Proof.Machine

/-! ## Register ports -/

/-- The link register R31 (rule R22). -/
def linkReg : RegIdx := 31#5

/-- Rules R21 and R102 over the slots, by the parameter `ZERO_REG`: reading register `i`. -/
def readSlot (z : ZeroReg) (regs : Vector Word 32) (i : RegIdx) : Word :=
  if z = .hardwired ∧ i = 0#5 then 0#32 else regs[i.toNat]'i.isLt

/-- Rule R102's write port over the slots, by the parameter `ZERO_REG`: under `HARDWIRED` a write to slot 0 is
discarded. -/
def writeSlot (z : ZeroReg) (regs : Vector Word 32) (i : RegIdx) (v : Word) : Vector Word 32 :=
  if z = .hardwired ∧ i = 0#5 then regs else regs.set i.toNat v i.isLt

/-- `x[i]` (rules R11, R21). -/
def State.readReg (s : State) (i : RegIdx) : Word := readSlot Config.zeroReg s.regs i

/-- `x[i] <- v` (rules R11, R102). -/
def State.writeReg (s : State) (i : RegIdx) (v : Word) : State :=
  { s with regs := writeSlot Config.zeroReg s.regs i v }

/-- `pc <- t` (rule R11). -/
def State.setPc (s : State) (t : Word) : State := { s with pc := t }

/-- The report an instruction hands to the tracer (rules R11, R103). -/
def State.setReport (s : State) (r : Report) : State := { s with report := r }

/-! ## The data memory, byte by byte -/

/-- What a byte that nothing has written reads as: a byte of the 0 that rule R292 gives every omitted word. -/
def Memory.unlisted (_ : Nat) : Byte := 0#8

/-- The byte at address `a`. -/
def Memory.readByte : Memory → Nat → Byte
  | [], a => unlisted a
  | (b, v) :: m, a => if b = a then v else readByte m a

/-- A cell put in front of a memory, or nothing if its byte is what an unlisted address reads as. -/
def Memory.consCell (a : Nat) (v : Byte) (m : Memory) : Memory :=
  if v = unlisted a then m else (a, v) :: m

/-- Store one byte, keeping the addresses rising and no listed byte equal to an unlisted one's. -/
def Memory.writeByte : Memory → Nat → Byte → Memory
  | [], a, v => consCell a v []
  | (b, u) :: m, a, v =>
    if a < b then consCell a v ((b, u) :: m)
    else if a = b then consCell a v m
    else (b, u) :: writeByte m a v

/-- The word whose lowest byte is at `a`, the low-order byte first (assumption log entry 2). -/
def Memory.readWord (m : Memory) (a : Nat) : Word :=
  readByte m (a + 3) ++ readByte m (a + 2) ++ readByte m (a + 1) ++ readByte m a

/-- Byte `k` of a word, byte 0 the low-order one. -/
def byteOf (v : Word) (k : Nat) : Byte := v.extractLsb' (8 * k) 8

/-- Store a word at `a`, all 32 bits (rule R53), in the layout of `readWord`. -/
def Memory.writeWord (m : Memory) (a : Nat) (v : Word) : Memory :=
  (((m.writeByte a (byteOf v 0)).writeByte (a + 1) (byteOf v 1)).writeByte (a + 2) (byteOf v 2)).writeByte
    (a + 3) (byteOf v 3)

/-- The number of byte addresses of the 250 words (rule R29). -/
def memBytes : Nat := Config.memWords * Config.memAddrStep

/-- The canonical form: addresses strictly rising and inside the data space (rule R29), no listed byte equal to what an
unlisted address reads as. -/
abbrev Memory.wf (m : Memory) : Prop :=
  m.Pairwise (fun c d => c.1 < d.1) ∧ ∀ c ∈ m, c.1 < memBytes ∧ c.2 ≠ unlisted c.1

/-! ## The memory primitives (rules R51 to R56) -/

/-- Rule R51's `Check(addr)`, by the parameter `MISALIGNED`: the index of the word accessed, or the fault. The
misalignment test comes first (rule R56). Under `TRUNCATE` the index is the address divided by 4, rounded toward zero,
and the bounds test is on the index (D11). -/
def checkAddr (p : Misaligned) (addr : Word) : Except Fault Nat :=
  match p with
  | .fault =>
    if addr.extractLsb' 0 2 ≠ 0#2 then .error (.raised .misalignedAccess addr.toInt)
    else if 0 ≤ addr.toInt ∧ addr.toInt ≤ Config.memMaxAddr then .ok (addr.toInt / 4).toNat
    else .error (.raised .outOfBounds addr.toInt)
  | .truncate =>
    let k := addr.toInt.tdiv 4
    if 0 ≤ k ∧ k < Config.memWords then .ok k.toNat
    else .error (.raised .outOfBounds addr.toInt)

/-- The word index `Check` gives on this hardware. -/
def wordIndex (addr : Word) : Except Fault Nat := checkAddr Config.misaligned addr

/-- `Mem[k]` is at byte address `4k` (rule R29). -/
def wordAddr (k : Nat) : Nat := Config.memAddrStep * k

/-- `MemRead(addr, 4)` (rule R52). -/
def State.memRead (s : State) (addr : Word) : Except Fault Word :=
  match wordIndex addr with
  | .error f => .error f
  | .ok k => .ok (s.mem.readWord (wordAddr k))

/-- `MemWrite(addr, 4, v)` (rule R53). -/
def State.memWrite (s : State) (addr : Word) (v : Word) : Except Fault State :=
  match wordIndex addr with
  | .error f => .error f
  | .ok k => .ok { s with mem := s.mem.writeWord (wordAddr k) v }

/-! ## Ending an instruction -/

/-- The execution engine's outcome `Ok(S', report)` (rule R100). -/
def complete (mem wb : Bool) (s : State) : Result := .next (s.setReport ⟨mem, wb⟩)

/-- An instruction whose only effect is to write one register: report `{mem: false, wb: true}`, set whether or not the
write lands (rules R102, R103). -/
def writeResult (d : RegIdx) (v : Word) (s : State) : Result := complete false true (s.writeReg d v)

/-- The no-op of rule R106, the meaning of every unrecognised encoding. -/
def execNoOp (s : State) : Result := complete false false s

/-! ## Faults (rules R261, R262) -/

/-- The fault codes of rule R261. -/
def FaultKind.code : FaultKind → Nat
  | .misalignedAccess => 1
  | .outOfBounds => 2
  | .shiftOutOfRange => 3
  | .pcOutOfBounds => 4

/-- Rule R262: a fault on the state as it was before the fetch. The machine enters FAULTED with the record; `pc` is the
faulting instruction's index (or the offending pc), `instrNo` the number it would have carried; nothing else changes. -/
def State.takeFault (s : State) (kind : FaultKind) (info : Int) : State :=
  { s with run := .faulted, fault := some ⟨kind, info, s.pc, s.instrNo⟩ }

/-- Rule R236: `pc >= L` at loop entry. -/
def State.enterHalted (s : State) : State := { s with run := .halted }

end Sys2Proof.Machine
end

