-- ==== Sys2Proof/Machine/Operands.lean ====
section
/-! DEFINITION. Every operand form: the shift amounts (rule R140), the effective address (rule R190), the branch target
(rule R200), the J-format target (rules R220, R221) and JALR's target (rule R161). The immediates are extended by
`simm` and `off26` of the decoder (rules R77, R78). -/

namespace Sys2Proof.Machine

/-! ## Shift amounts (rule R140) -/

/-- Rule R140's `Range(n)`, by the parameter `SHIFT_RANGE`. -/
def shiftAmount (p : ShiftRange) (n : Int) : Except Fault Nat :=
  if 0 ≤ n ∧ n ≤ 31 then .ok n.toNat
  else match p with
    | .fault => .error (.raised .shiftOutOfRange n)
    | .mask5 => .ok (n % 32).toNat

/-- The amount of SLL, SRL and SRA before the range test, by the parameter `SHAMT_SOURCE`: `signed(x[funct])`, the
funct field read as a register index, or the shamt field. -/
def fixedSource (p : ShamtSource) (funct : Field6) (shamt : BitVec 5) (s : State) : Int :=
  match p with
  | .regFunct => (s.readReg (funct.setWidth 5)).toInt
  | .shamtField => shamt.toNat

/-- Rule R140's `FixedAmount(d)` on this hardware. -/
def fixedAmount (funct : Field6) (shamt : BitVec 5) (s : State) : Except Fault Nat :=
  shiftAmount Config.shiftRange (fixedSource Config.shamtSource funct shamt s)

/-- Rule R140's `VarAmount(d)`: the amount of SLLV, SRLV and SRAV. -/
def varAmount (rs : RegIdx) (s : State) : Except Fault Nat :=
  shiftAmount Config.shiftRange (s.readReg rs).toInt

/-! ## Addresses and targets -/

/-- Rule R190: `EA = (x[rs] + simm) mod 2^32`. -/
def effectiveAddr (rs : RegIdx) (imm : Imm16) (s : State) : Word := s.readReg rs + simm imm

/-- Rule R200: a taken branch's target, counted in words from the advanced pc. -/
def branchTarget (off : Imm16) (s : State) : Word := s.pc + simm off

/-- Rules R220 and R221: a J-format jump's target, counted in words from the advanced pc. -/
def jumpTarget (target : Target26) (s : State) : Word := s.pc + off26 target

/-- The link write of JALR, JAL, BGEZAL and BLTZAL: R31 gets the advanced pc (rules R22, R161, R205, R221). -/
def State.link (s : State) : State := s.writeReg linkReg s.pc

/-- JALR's target, by the parameter `JALR_ORDER` (rule R161): `x[rs]` before or after the link write. -/
def jalrTarget (p : JalrOrder) (rs : RegIdx) (s : State) : Word :=
  match p with
  | .operandsFirst => s.readReg rs
  | .linkFirst => s.link.readReg rs

end Sys2Proof.Machine
end

