-- ==== Sys2Proof/Machine/Branch.lean ====
section
/-! DEFINITION. Conditional branches (46_branch.md): a taken branch adds the word offset to the advanced pc; no delay
slot, no check of the target, report `{mem: false, wb: false}` (D17). The link variants write R31 whether or not they
branch, after the condition's operand is read (rule R205). -/

namespace Sys2Proof.Machine

/-- Rule R200: a taken branch sets pc to the target, a branch not taken leaves it. -/
def branchIf (taken : Bool) (off : Imm16) (s : State) : Result :=
  complete false false (if taken then s.setPc (branchTarget off s) else s)

/-- Rule R205's `Link(d)`. -/
def linkBranchIf (taken : Bool) (off : Imm16) (s : State) : Result := branchIf taken off s.link

/-- BEQ (rule R201). -/
def execBeq (rs rt : RegIdx) (off : Imm16) (s : State) : Result := branchIf (s.readReg rs == s.readReg rt) off s

/-- BNE (rule R202). -/
def execBne (rs rt : RegIdx) (off : Imm16) (s : State) : Result := branchIf (s.readReg rs != s.readReg rt) off s

/-- BGTZ (rule R203). -/
def execBgtz (rs : RegIdx) (off : Imm16) (s : State) : Result := branchIf (isPositive (s.readReg rs)) off s

/-- BLEZ (rule R204). -/
def execBlez (rs : RegIdx) (off : Imm16) (s : State) : Result := branchIf (isNotPositive (s.readReg rs)) off s

/-- BGEZ (rule R206). -/
def execBgez (rs : RegIdx) (off : Imm16) (s : State) : Result := branchIf (isNotNegative (s.readReg rs)) off s

/-- BGEZAL (rule R207). -/
def execBgezal (rs : RegIdx) (off : Imm16) (s : State) : Result := linkBranchIf (isNotNegative (s.readReg rs)) off s

/-- BLTZ (rule R208). -/
def execBltz (rs : RegIdx) (off : Imm16) (s : State) : Result := branchIf (isNegative (s.readReg rs)) off s

/-- BLTZAL (rule R209). -/
def execBltzal (rs : RegIdx) (off : Imm16) (s : State) : Result := linkBranchIf (isNegative (s.readReg rs)) off s

end Sys2Proof.Machine
end

