-- ==== Sys2Proof/Machine/IAlu.lean ====
section
/-! DEFINITION. I-format arithmetic, logic, compare and LUI (44_i_alu.md): each writes `x[rt]`, the immediate is
sign-extended for all of them (rule R77), and none faults. -/

namespace Sys2Proof.Machine

/-- ADDI (rule R170). -/
def execAddi (rt rs : RegIdx) (imm : Imm16) (s : State) : Result := writeResult rt (s.readReg rs + simm imm) s

/-- ADDIU (rule R171). -/
def execAddiu (rt rs : RegIdx) (imm : Imm16) (s : State) : Result :=
  writeResult rt (addUnsigned (s.readReg rs) (simm imm)) s

/-- ANDI, the boolean AND (rule R172). -/
def execAndi (rt rs : RegIdx) (imm : Imm16) (s : State) : Result :=
  writeResult rt (boolAnd (s.readReg rs) (simm imm)) s

/-- ORI (rule R173). -/
def execOri (rt rs : RegIdx) (imm : Imm16) (s : State) : Result := writeResult rt (s.readReg rs ||| simm imm) s

/-- XORI (rule R174). -/
def execXori (rt rs : RegIdx) (imm : Imm16) (s : State) : Result := writeResult rt (s.readReg rs ^^^ simm imm) s

/-- SLTI (rule R175). -/
def execSlti (rt rs : RegIdx) (imm : Imm16) (s : State) : Result :=
  writeResult rt (setLess (s.readReg rs) (simm imm)) s

/-- SLTIU: the immediate is sign-extended, then both sides are compared as unsigned (rule R176). -/
def execSltiu (rt rs : RegIdx) (imm : Imm16) (s : State) : Result :=
  writeResult rt (setLessUnsigned (s.readReg rs) (simm imm)) s

/-- LUI: no memory access, no fall-through into LW (rule R177, C5). -/
def execLui (rt : RegIdx) (imm : Imm16) (s : State) : Result := writeResult rt (upperHalf imm) s

end Sys2Proof.Machine
end

