-- ==== Sys2Proof/Machine/Jump.lean ====
section
/-! DEFINITION. J-format jumps (47_jump.md), relative to the advanced pc, in words, with no delay slot; report
`{mem: false, wb: false}` (D17). -/

namespace Sys2Proof.Machine

/-- J (rule R220). -/
def execJ (target : Target26) (s : State) : Result := complete false false (s.setPc (jumpTarget target s))

/-- JAL (rule R221): the link and the base are the same advanced pc. -/
def execJal (target : Target26) (s : State) : Result := complete false false (s.link.setPc (jumpTarget target s))

end Sys2Proof.Machine
end

