-- ==== Sys2Proof/Machine/LoadStore.lean ====
section
/-! DEFINITION. Loads and stores (45_load_store.md): base register plus sign-extended byte offset, one 32-bit word; the
address is checked before anything is written (rules R51, R107). -/

namespace Sys2Proof.Machine

/-- LW (rule R191): with `rt = 0` the read is made and checked, and its value discarded. -/
def execLw (rt rs : RegIdx) (imm : Imm16) (s : State) : Result :=
  match s.memRead (effectiveAddr rs imm s) with
  | .error f => .fault f
  | .ok v => complete true true (s.writeReg rt v)

/-- SW (rule R192). -/
def execSw (rt rs : RegIdx) (imm : Imm16) (s : State) : Result :=
  match s.memWrite (effectiveAddr rs imm s) (s.readReg rt) with
  | .error f => .fault f
  | .ok t => complete true false t

end Sys2Proof.Machine
end

