-- ==== Sys2Proof/Machine/RAlu.lean ====
section
/-! DEFINITION. R-format arithmetic, logic and compare (41_r_alu.md): each reads `x[rs]` and `x[rt]` before it writes
`x[rd]`, and none faults. -/

namespace Sys2Proof.Machine

/-- ADD (rule R120). -/
def execAdd (rd rs rt : RegIdx) (s : State) : Result := writeResult rd (s.readReg rs + s.readReg rt) s

/-- SUB (rule R121). -/
def execSub (rd rs rt : RegIdx) (s : State) : Result := writeResult rd (s.readReg rs - s.readReg rt) s

/-- SUBU (rule R122). -/
def execSubu (rd rs rt : RegIdx) (s : State) : Result := writeResult rd (subUnsigned (s.readReg rs) (s.readReg rt)) s

/-- ADDU (rule R123). -/
def execAddu (rd rs rt : RegIdx) (s : State) : Result := writeResult rd (addUnsigned (s.readReg rs) (s.readReg rt)) s

/-- AND, the boolean AND (rule R124). -/
def execAnd (rd rs rt : RegIdx) (s : State) : Result := writeResult rd (boolAnd (s.readReg rs) (s.readReg rt)) s

/-- OR (rule R125). -/
def execOr (rd rs rt : RegIdx) (s : State) : Result := writeResult rd (s.readReg rs ||| s.readReg rt) s

/-- XOR (rule R126). -/
def execXor (rd rs rt : RegIdx) (s : State) : Result := writeResult rd (s.readReg rs ^^^ s.readReg rt) s

/-- NOR (rule R127). -/
def execNor (rd rs rt : RegIdx) (s : State) : Result := writeResult rd (~~~(s.readReg rs ||| s.readReg rt)) s

/-- SLT (rule R128). -/
def execSlt (rd rs rt : RegIdx) (s : State) : Result := writeResult rd (setLess (s.readReg rs) (s.readReg rt)) s

/-- SLTU (rule R129). -/
def execSltu (rd rs rt : RegIdx) (s : State) : Result :=
  writeResult rd (setLessUnsigned (s.readReg rs) (s.readReg rt)) s

end Sys2Proof.Machine
end

