-- ==== Sys2Proof/Machine/RJump.lean ====
section
/-! DEFINITION. R-format jump-register instructions (43_r_jump.md). The target is a word index, neither scaled nor
checked; the report is `{mem: false, wb: false}` for both, although JALR writes R31 (C7). -/

namespace Sys2Proof.Machine

/-- JR (rule R160). -/
def execJr (rs : RegIdx) (s : State) : Result := complete false false (s.setPc (s.readReg rs))

/-- JALR (rule R161). -/
def execJalr (rs : RegIdx) (s : State) : Result :=
  complete false false (s.link.setPc (jalrTarget Config.jalrOrder rs s))

end Sys2Proof.Machine
end

