-- ==== Sys2Proof/Machine/RShift.lean ====
section
/-! DEFINITION. R-format shifts (42_r_shift.md). The amount is read and range-checked before anything is written; an
amount outside 0..31 raises `ShiftOutOfRange`. SLL, SRL and SRA take their amount from register `funct`, which rule R80
fixes as 0, 2 and 3. -/

namespace Sys2Proof.Machine

/-- A shift: the amount's fault, or the shifted `x[rt]` written to `x[rd]`. -/
def shiftBy (amount : Except Fault Nat) (op : Word → Nat → Word) (rd rt : RegIdx) (s : State) : Result :=
  match amount with
  | .error f => .fault f
  | .ok n => writeResult rd (op (s.readReg rt) n) s

/-- SLL, amount `x[0]` (rule R141). -/
def execSll (rd rt : RegIdx) (sa : BitVec 5) (s : State) : Result :=
  shiftBy (fixedAmount 0x00#6 sa s) shiftLeft rd rt s

/-- SLLV (rule R142). -/
def execSllv (rd rt rs : RegIdx) (s : State) : Result := shiftBy (varAmount rs s) shiftLeft rd rt s

/-- SRA, amount `x[3]` (rule R143). -/
def execSra (rd rt : RegIdx) (sa : BitVec 5) (s : State) : Result :=
  shiftBy (fixedAmount 0x03#6 sa s) shiftRight rd rt s

/-- SRL, amount `x[2]`; the shift is arithmetic (rule R144). -/
def execSrl (rd rt : RegIdx) (sa : BitVec 5) (s : State) : Result :=
  shiftBy (fixedAmount 0x02#6 sa s) shiftRight rd rt s

/-- SRAV (rule R145). -/
def execSrav (rd rt rs : RegIdx) (s : State) : Result := shiftBy (varAmount rs s) shiftRight rd rt s

/-- SRLV; the shift is arithmetic (rule R146). -/
def execSrlv (rd rt rs : RegIdx) (s : State) : Result := shiftBy (varAmount rs s) shiftRight rd rt s

end Sys2Proof.Machine
end

