-- ==== Sys2Proof/Machine/RunLoop.lean ====
section
/-! DEFINITION. The cycle tracer and one step of the run loop (48_tracer_run_loop.md). -/

namespace Sys2Proof.Machine

/-! ## Cycle tracer (rules R230 to R234) -/

/-- Rule R232: the stages an instruction with this report emits, in order. -/
def stagesOf (r : Report) : List Stage :=
  [.IF, .ID, .EX] ++ (if r.mem then [.MEM] else []) ++ (if r.wb then [.WB] else [])

/-- Rule R232: the entries of one instruction, numbered from cycle `c` on, all with the instruction number `n`. -/
def traceLines (c n : Nat) : List Stage → List TraceEntry
  | [] => []
  | st :: rest => ⟨c, n, st⟩ :: traceLines (c + 1) n rest

/-- Rule R232's `Trace(report)`; the report is consumed (rule R36). -/
def State.traceReport (s : State) : State :=
  { s with
    trace   := s.trace ++ traceLines s.cycle s.instrNo (stagesOf s.report)
    cycle   := s.cycle + (stagesOf s.report).length
    instrNo := s.instrNo + 1
    report  := .idle }

/-! ## Run loop (rules R235 to R237) -/

/-- `L`, the length of the loaded code (rule R28). -/
def State.codeLen (s : State) : Nat := s.code.length

/-- Rule R236's fetch: `w = Code[i]` with `i = pc`; used only when `0 <= pc < L`. -/
def State.fetch (s : State) : Word := s.code.getD s.pc.toNat 0#32

/-- Rule R236: "increment on fetch". -/
def State.advance (s : State) : State := s.setPc (s.pc + 1#32)

/-- Decode and execute the fetched word: an instruction, or the no-op of rule R106. -/
def runWord (w : Word) (s : State) : Result :=
  match decode w with
  | .instr i => exec i s
  | .unknown _ => execNoOp s

/-- Rule R236's two cases on what Execute answers; `s` is the state as before the fetch. -/
def settle (s : State) (r : Result) : Result :=
  match r with
  | .next t => .next t.traceReport
  | .fault (.raised kind info) => .next (s.takeFault kind info)
  | .fault .haltedMachine => .fault .haltedMachine
  | .fault .faultedMachine => .fault .faultedMachine
  | .refused why => .refused why

/-- Rule R236: one step of the run loop; the terminal states have none (rule R235). -/
def runLoop (s : State) : Result :=
  match s.run with
  | .halted => .fault .haltedMachine
  | .faulted => .fault .faultedMachine
  | .running =>
    if (s.codeLen : Int) ≤ s.pc.toInt then .next s.enterHalted
    else if s.pc.toInt < 0 then .next (s.takeFault .pcOutOfBounds s.pc.toInt)
    else settle s (runWord s.fetch s.advance)

/-! ## Placing a word where the next step fetches it -/

/-- The index a word can be fetched at: the pc where it is an index of a full code store, else 0. -/
def State.placeIndex (s : State) : Nat := if s.pc.toNat < Config.codeMax then s.pc.toNat else 0

/-- The code with `w` at index `k`, lengthened with zero words where it is too short to have that index. -/
def placeWord (code : List Word) (k : Nat) (w : Word) : List Word :=
  (code ++ List.replicate (k + 1 - code.length) 0#32).set k w

/-- A running state that fetches exactly `w` next (assumption log entry 13). -/
def State.placeFetch (s : State) (w : Word) : State :=
  { s with
    pc    := BitVec.ofNat 32 s.placeIndex
    code  := placeWord s.code s.placeIndex w
    run   := .running
    fault := none }

end Sys2Proof.Machine
end

