-- ==== Sys2Proof/Machine/Step.lean ====
section
/-! DEFINITION. The step of the machine, and the host's way of putting one instruction word before it. -/

namespace Sys2Proof.Machine

/-- One step: one iteration of the run loop (rule R236). -/
def step (s : State) : Host.Outcome State Fault Refusal := runLoop s

/-- `s` with the instruction word `w` stored where `step` fetches its next instruction (one 32-bit word, rule R70). -/
def State.withFetchWord (s : State) (nbits w : Nat) : State :=
  s.placeFetch (BitVec.ofNat 32 (w % 2 ^ nbits))

end Sys2Proof.Machine
end

