-- ==== Sys2Proof/Machine/Dump.lean ====
section
/-! DEFINITION. What the core hands to its observer (rules R238, R239): the final dump's content and the observation of a
stopped machine. Both are read off the state and change nothing. -/

namespace Sys2Proof.Machine

/-- The dump's content (rule R238): `(i, signed(x[i]))` and `(4k, signed(Mem[k]))`, nonzero entries, ascending. -/
structure Dump where
  regs : List (Nat × Int)
  mem  : List (Nat × Int)
  deriving DecidableEq, Repr

/-- A dump line for key `key` and value `v`: none when the value is 0. -/
def dumpEntry (key : Nat) (v : Word) : Option (Nat × Int) := if v = 0#32 then none else some (key, v.toInt)

/-- Rule R238: every register whose value is nonzero. -/
def State.dumpRegs (s : State) : List (Nat × Int) :=
  (List.range 32).filterMap fun i => dumpEntry i (s.readReg (BitVec.ofNat 5 i))

/-- Rule R238: every memory word that is nonzero, by its byte address. -/
def State.dumpMem (s : State) : List (Nat × Int) :=
  (List.range Config.memWords).filterMap fun k => dumpEntry (wordAddr k) (s.mem.readWord (wordAddr k))

/-- Rule R238's `FinalDump(S)`. -/
def State.finalDump (s : State) : Dump := ⟨s.dumpRegs, s.dumpMem⟩

/-- The two finite observations of a run (rule R239); the third outcome is a run that stays in RUNNING for ever. -/
inductive Observation where
  | halted  (trace : List TraceEntry) (dump : Dump)
  | faulted (trace : List TraceEntry) (record : FaultRecord)
  deriving DecidableEq, Repr

/-- What a state shows of its run: the trace and the dump once HALTED, the trace and the fault record (and no dump) once
FAULTED, nothing yet while RUNNING (rules R238, R239). -/
def State.observe (s : State) : Option Observation :=
  match s.run, s.fault with
  | .running, _ => none
  | .halted, _ => some (.halted s.trace s.finalDump)
  | .faulted, some r => some (.faulted s.trace r)
  | .faulted, none => none

end Sys2Proof.Machine
end

