-- ==== Sys2Proof/Machine/Load.lean ====
section
/-! DEFINITION. The load that is this core's reset (rules R290 to R292): an admitted load image gives the initial state, a
rejected one gives none. -/

namespace Sys2Proof.Machine

/-- The register slots a load gives: the pairs written in order over zeros, so that the later of two pairs for one index
wins and a pair for index 0 is ignored (rule R292). -/
def loadRegs (pairs : List (Nat × Word)) : Vector Word 32 :=
  pairs.foldl (fun r p => writeSlot Config.zeroReg r (BitVec.ofNat 5 p.1) p.2) (Vector.replicate 32 0#32)

/-- The data memory a load gives: the pairs stored in order over zeros, the later pair for an address winning (rule
R292). -/
def loadMem (pairs : List (Nat × Word)) : Memory :=
  pairs.foldl (fun m p => m.writeWord p.1 p.2) []

/-- Rule R292: the values after reset for this image. -/
def initialState (im : LoadImage) : State :=
  { State.reset with
    regs := loadRegs im.regs
    mem  := loadMem im.mem
    code := im.code }

/-- Rules R290 and R291: the reset state of an admitted load, none for a rejected one (D23). -/
def load (im : LoadImage) : Option State := if im.wf then some (initialState im) else none

end Sys2Proof.Machine
end

