-- ==== Sys2Proof/Safety.lean ====
section
/-! DEFINITION. The terms claims are made in: what a safe run is, the invariants of the machine and of its trace, what an
instruction leaves unchanged, and the tables of rules R23, R26, R103 and R298 as functions of the instruction. -/

namespace Sys2Proof.Machine

/-! ## Safe runs and invariants -/

/-- A safe state: the machine has not stopped with a fault (rule R262). -/
def State.Safe (s : State) : Prop := s.run ≠ .faulted

/-- What every step keeps of the machine: canonical memory inside the data space (rule R29), code within its capacity
(rule R28), an empty slot 0 (rule R21), no report under way (rule R36), a fault record exactly when FAULTED, naming the
stopped state's pc and instruction number (rules R33, R262), and HALTED only past the end of the code (rule R237). -/
structure State.Inv (s : State) : Prop where
  mem_wf      : s.mem.wf
  code_fits   : s.code.length ≤ Config.codeMax
  slot_zero   : s.regs[0] = 0#32
  report_idle : s.report = .idle
  fault_iff   : s.run = .faulted ↔ s.fault.isSome = true
  record_ok   : ∀ r, s.fault = some r → r.faultPc = s.pc ∧ r.instrNo = s.instrNo
  halted_past : s.run = .halted → (s.codeLen : Int) ≤ s.pc.toInt

/-- What every step keeps of the trace (rules R232, R233): cycle numbers run from `CYCLE_START` with no gap and `C` is
the next one; `N` is one more than the number of instructions fetched; instruction numbers never fall, start at 1 and
are below `N`. -/
structure State.TraceInv (s : State) : Prop where
  cycle_next  : s.cycle = Config.cycleStart + s.trace.length
  consecutive : ∀ k e, s.trace[k]? = some e → e.cycle = Config.cycleStart + k
  instr_next  : s.instrNo = 1 + s.trace.countP fun e => decide (e.stage = .IF)
  rising      : s.trace.Pairwise fun d e => d.instrNo ≤ e.instrNo
  in_range    : ∀ e ∈ s.trace, 1 ≤ e.instrNo ∧ e.instrNo < s.instrNo

/-- The pc is the index of a loaded word: the states from which an iteration fetches (rule R27). -/
def State.InCode (s : State) : Prop := 0 ≤ s.pc.toInt ∧ s.pc.toInt < (s.codeLen : Int)

/-- `k` iterations of the run loop from `s`, one after the other (rules R235, R239). -/
def iterations : Nat → State → Result
  | 0, s => .next s
  | k + 1, s =>
    match iterations k s with
    | .next t => step t
    | .fault f => .fault f
    | .refused r => .refused r

/-! ## Frames -/

/-- Every register reads as before. -/
def SameRegs (s t : State) : Prop := ∀ j, t.readReg j = s.readReg j

/-- Every register but `d` reads as before. -/
def SameRegsBut (d : RegIdx) (s t : State) : Prop := ∀ j, j ≠ d → t.readReg j = s.readReg j

/-- Every byte of memory reads as before. -/
def SameMem (s t : State) : Prop := ∀ a, t.mem.readByte a = s.mem.readByte a

/-- The code store, the run state, the fault record, the trace and its counters are as before: what no execution of an
instruction touches (rule R100). -/
def SameRun (s t : State) : Prop :=
  t.code = s.code ∧ t.run = s.run ∧ t.fault = s.fault ∧ t.cycle = s.cycle ∧ t.instrNo = s.instrNo ∧ t.trace = s.trace

/-- `exec i s` completes, `x[d]` gets `v` (nothing, if `d` is register 0), the report is `{mem: false, wb: true}`, and
nothing else changes. -/
def WritesReg (i : Instr) (d : RegIdx) (v : Word) (s : State) : Prop :=
  ∃ t, exec i s = .next t ∧ t.readReg d = (if d = 0#5 then 0#32 else v) ∧ SameRegsBut d s t ∧ t.pc = s.pc ∧
    t.report = ⟨false, true⟩ ∧ SameMem s t ∧ SameRun s t

/-- The state `t` an executed instruction leaves is checked at the next loop entry: with `pc >= L` the machine halts there,
with `pc < 0` it stops there with `PcOutOfBounds` (rule R236). -/
def CheckedNext (t : State) : Prop :=
  t.run = .running →
    ((t.codeLen : Int) ≤ t.pc.toInt → ∃ u, step t.traceReport = .next u ∧ u.run = .halted) ∧
    (t.pc.toInt < 0 → ∃ u, step t.traceReport = .next u ∧ u.run = .faulted ∧
      u.fault = some ⟨.pcOutOfBounds, t.pc.toInt, t.pc, t.instrNo + 1⟩)

/-- `exec i s` completes with pc `p`, unchecked until the next loop entry, and no register, memory byte or other state
changes; the report is `{mem: false, wb: false}`. -/
def MovesPc (i : Instr) (p : Word) (s : State) : Prop :=
  ∃ t, exec i s = .next t ∧ t.pc = p ∧ SameRegs s t ∧ t.report = ⟨false, false⟩ ∧ SameMem s t ∧ SameRun s t ∧
    CheckedNext t

/-- As `MovesPc`, and R31 gets the advanced pc. -/
def MovesPcAndLinks (i : Instr) (p : Word) (s : State) : Prop :=
  ∃ t, exec i s = .next t ∧ t.pc = p ∧ t.readReg linkReg = s.pc ∧ SameRegsBut linkReg s t ∧
    t.report = ⟨false, false⟩ ∧ SameMem s t ∧ SameRun s t ∧ CheckedNext t

/-- `exec i s` raises a fault (rule R100's second outcome). -/
def Raises (i : Instr) (kind : FaultKind) (info : Int) (s : State) : Prop := exec i s = .fault (.raised kind info)

/-! ## Tables over the instructions -/

/-- Rule R26: the instructions that may overwrite the advanced pc. -/
def redirects : Instr → Bool
  | .jr _ | .jalr _ | .beq _ _ _ | .bne _ _ _ | .bgtz _ _ | .blez _ _ | .bgez _ _ | .bgezal _ _ | .bltz _ _
  | .bltzal _ _ | .j _ | .jal _ => true
  | .add _ _ _ | .sub _ _ _ | .subu _ _ _ | .addu _ _ _ | .and _ _ _ | .or _ _ _ | .xor _ _ _ | .nor _ _ _
  | .slt _ _ _ | .sltu _ _ _ | .sll _ _ _ | .sllv _ _ _ | .sra _ _ _ | .srl _ _ _ | .srav _ _ _ | .srlv _ _ _
  | .addi _ _ _ | .addiu _ _ _ | .andi _ _ _ | .ori _ _ _ | .xori _ _ _ | .slti _ _ _ | .sltiu _ _ _ | .lui _ _
  | .lw _ _ _ | .sw _ _ _ => false

/-- Rule R23, the write column: the register an instruction writes. -/
def destReg : Instr → Option RegIdx
  | .add rd _ _ | .sub rd _ _ | .subu rd _ _ | .addu rd _ _ | .and rd _ _ | .or rd _ _ | .xor rd _ _ | .nor rd _ _
  | .slt rd _ _ | .sltu rd _ _ | .sll rd _ _ | .sllv rd _ _ | .sra rd _ _ | .srl rd _ _ | .srav rd _ _
  | .srlv rd _ _ => some rd
  | .addi rt _ _ | .addiu rt _ _ | .andi rt _ _ | .ori rt _ _ | .xori rt _ _ | .slti rt _ _ | .sltiu rt _ _
  | .lui rt _ | .lw rt _ _ => some rt
  | .jalr _ | .bgezal _ _ | .bltzal _ _ | .jal _ => some linkReg
  | .jr _ | .sw _ _ _ | .beq _ _ _ | .bne _ _ _ | .bgtz _ _ | .blez _ _ | .bgez _ _ | .bltz _ _ | .j _ => none

/-- Rule R23, the read column: the registers an instruction reads. -/
def sourceRegs : Instr → List RegIdx
  | .add _ rs rt | .sub _ rs rt | .subu _ rs rt | .addu _ rs rt | .and _ rs rt | .or _ rs rt | .xor _ rs rt
  | .nor _ rs rt | .slt _ rs rt | .sltu _ rs rt => [rs, rt]
  | .sll _ rt _ => [rt, 0#5]
  | .srl _ rt _ => [rt, 2#5]
  | .sra _ rt _ => [rt, 3#5]
  | .sllv _ rt rs | .srav _ rt rs | .srlv _ rt rs => [rt, rs]
  | .jr rs | .jalr rs => [rs]
  | .addi _ rs _ | .addiu _ rs _ | .andi _ rs _ | .ori _ rs _ | .xori _ rs _ | .slti _ rs _ | .sltiu _ rs _
  | .lw _ rs _ => [rs]
  | .sw rt rs _ => [rs, rt]
  | .beq rs rt _ | .bne rs rt _ => [rs, rt]
  | .bgtz rs _ | .blez rs _ | .bgez rs _ | .bgezal rs _ | .bltz rs _ | .bltzal rs _ => [rs]
  | .lui _ _ | .j _ | .jal _ => []

/-- Rule R103: the report each instruction makes. -/
def reportOf : Instr → Report
  | .add _ _ _ | .sub _ _ _ | .subu _ _ _ | .addu _ _ _ | .and _ _ _ | .or _ _ _ | .xor _ _ _ | .nor _ _ _
  | .slt _ _ _ | .sltu _ _ _ | .sll _ _ _ | .sllv _ _ _ | .sra _ _ _ | .srl _ _ _ | .srav _ _ _ | .srlv _ _ _
  | .addi _ _ _ | .addiu _ _ _ | .andi _ _ _ | .ori _ _ _ | .xori _ _ _ | .slti _ _ _ | .sltiu _ _ _
  | .lui _ _ => ⟨false, true⟩
  | .lw _ _ _ => ⟨true, true⟩
  | .sw _ _ _ => ⟨true, false⟩
  | .jr _ | .jalr _ | .beq _ _ _ | .bne _ _ _ | .bgtz _ _ | .blez _ _ | .bgez _ _ | .bgezal _ _ | .bltz _ _
  | .bltzal _ _ | .j _ | .jal _ => ⟨false, false⟩

/-- Rule R298: the trace stages of each instruction, in order; their number is its logical cycles. -/
def stagesTable : Instr → List Stage
  | .lw _ _ _ => [.IF, .ID, .EX, .MEM, .WB]
  | .sw _ _ _ => [.IF, .ID, .EX, .MEM]
  | .add _ _ _ | .sub _ _ _ | .subu _ _ _ | .addu _ _ _ | .and _ _ _ | .or _ _ _ | .xor _ _ _ | .nor _ _ _
  | .slt _ _ _ | .sltu _ _ _ | .sll _ _ _ | .sllv _ _ _ | .sra _ _ _ | .srl _ _ _ | .srav _ _ _ | .srlv _ _ _
  | .addi _ _ _ | .addiu _ _ _ | .andi _ _ _ | .ori _ _ _ | .xori _ _ _ | .slti _ _ _ | .sltiu _ _ _
  | .lui _ _ => [.IF, .ID, .EX, .WB]
  | .jr _ | .jalr _ | .beq _ _ _ | .bne _ _ _ | .bgtz _ _ | .blez _ _ | .bgez _ _ | .bgezal _ _ | .bltz _ _
  | .bltzal _ _ | .j _ | .jal _ => [.IF, .ID, .EX]

/-- Rule R298 with its last row: the trace stages of what a word decodes to. -/
def tabledStages : Decoded → List Stage
  | .instr i => stagesTable i
  | .unknown _ => [.IF, .ID, .EX]

/-- Rule R261, the column "when": what makes one iteration of the run loop, started in the running state `s`, stop with
this kind and recorded value. -/
def FaultCause (s : State) (info : Int) : FaultKind → Prop
  | .misalignedAccess => s.InCode ∧ ∃ rt rs imm,
      (decode s.fetch = .instr (.lw rt rs imm) ∨ decode s.fetch = .instr (.sw rt rs imm)) ∧
      (effectiveAddr rs imm s).toNat % 4 ≠ 0 ∧ info = (effectiveAddr rs imm s).toInt
  | .outOfBounds => s.InCode ∧ ∃ rt rs imm,
      (decode s.fetch = .instr (.lw rt rs imm) ∨ decode s.fetch = .instr (.sw rt rs imm)) ∧
      (effectiveAddr rs imm s).toNat % 4 = 0 ∧ ¬ (0 ≤ info ∧ info ≤ 996) ∧ info = (effectiveAddr rs imm s).toInt
  | .shiftOutOfRange => s.InCode ∧ ¬ (0 ≤ info ∧ info ≤ 31) ∧
      ((∃ rd rt sa, decode s.fetch = .instr (.srl rd rt sa) ∧ info = (s.readReg 2#5).toInt) ∨
       (∃ rd rt sa, decode s.fetch = .instr (.sra rd rt sa) ∧ info = (s.readReg 3#5).toInt) ∨
       (∃ rd rt rs, (decode s.fetch = .instr (.sllv rd rt rs) ∨ decode s.fetch = .instr (.srlv rd rt rs) ∨
          decode s.fetch = .instr (.srav rd rt rs)) ∧ info = (s.readReg rs).toInt))
  | .pcOutOfBounds => s.pc.toInt < 0 ∧ info = s.pc.toInt

end Sys2Proof.Machine
end

