-- ==== Sys2Proof/Certificates/Slice0/Obligations.lean ====
section
/-! DEFINITION. The statements for the provers, in the terms of Safety.lean. Each docstring names the rules it formalises;
rule R11's `x[i]` is `readReg`, and `exec` is applied to a state whose pc is already the instruction's index plus 1
(rule R100). -/

open Sys2Proof Sys2Proof.Machine

/-! ## Encoding -/

/-- Rule R80: words written out from the encoding tables, one of each family and one of each kind of unrecognised word,
decode to what they stand for. -/
def Obligations.WrittenOutWordsDecode : Prop :=
  decode 0b00000000001000100001100000100000#32 = .instr (.add 3#5 1#5 2#5) ∧
  decode 0b00000000000001100010100100000000#32 = .instr (.sll 5#5 6#5 4#5) ∧
  decode 0b00000011111000000000000000001000#32 = .instr (.jr 31#5) ∧
  decode 0b00110100000000101000000000000000#32 = .instr (.ori 2#5 0#5 0x8000#16) ∧
  decode 0b10101100000000010000000000000000#32 = .instr (.sw 1#5 0#5 0#16) ∧
  decode 0b00000100001100010000000000000011#32 = .instr (.bgezal 1#5 3#16) ∧
  decode 0b00001011111111111111111111111111#32 = .instr (.j 0x3FFFFFF#26) ∧
  decode 0b00000000000000000000000000000000#32 = .instr (.sll 0#5 0#5 0#5) ∧
  decode 0b00000000001000100001100000000001#32 = .unknown (.funct 1#6) ∧
  decode 0b00000100001000100000000000000011#32 = .unknown (.subcode 2#5) ∧
  decode 0b01000000000000000000000000000000#32 = .unknown (.opcode 16#6)

/-- Rules R71, R72, R73, R74 and R76: the opcode field and the three layouts tile every word, and the format is chosen by the opcode alone. -/
def Obligations.LayoutsTileEveryWord : Prop :=
  ∀ w : Word,
    ((opcodeOf w).setWidth 32 <<< 26) ||| ((rsOf w).setWidth 32 <<< 21) ||| ((rtOf w).setWidth 32 <<< 16) |||
      ((rdOf w).setWidth 32 <<< 11) ||| ((shamtOf w).setWidth 32 <<< 6) ||| (functOf w).setWidth 32 = w ∧
    encI (opcodeOf w) (rtOf w) (rsOf w) (immOf w) = w ∧
    encJ (opcodeOf w) (targetOf w) = w ∧
    (classify (opcodeOf w) = .R ↔ opcodeOf w = 0#6) ∧
    (classify (opcodeOf w) = .J ↔ opcodeOf w = 2#6 ∨ opcodeOf w = 3#6) ∧
    (classify (opcodeOf w) = .I ↔ opcodeOf w ≠ 0#6 ∧ opcodeOf w ≠ 2#6 ∧ opcodeOf w ≠ 3#6)

/-- Rule R78: the J-format offset has the signed value of its field; with `J_OFFSET_SIGNED = false` it would have the
unsigned value. Beside it the value of rule R77's `simm`, which every I-format statement below uses. -/
def Obligations.ImmediatesAreSignExtended : Prop :=
  (∀ imm : Imm16, (simm imm).toInt = imm.toInt) ∧
  (∀ t : Target26, (off26 t).toInt = t.toInt ∧ (ext26 true t).toInt = t.toInt ∧ (ext26 false t).toInt = t.toNat)

/-- Decode and encode agree: every instruction, with every operand at every value its encoding admits, comes back
(rules R75, R80, R88). -/
def Obligations.EncodedInstructionsDecodeBack : Prop :=
  ∀ i : Instr, i.wf = true → decode (encode i) = .instr i

/-- The other direction: a word that selects an instruction is that instruction's encoding on every bit its kind gives a
meaning to, and the other bits are ignored (rules R81, R82, R86). -/
def Obligations.DecodedWordsReencodeOnNamedBits : Prop :=
  ∀ (w : Word) (i : Instr), decode w = .instr i → encode i = w &&& namedBits i

/-- Rules R83, R84 and R106: exactly the funct values, opcodes and opcode-1 sub-codes that rules R81, R82 and R83 list are
unrecognised, every other word is an instruction, and an unrecognised word only advances the pc and emits IF, ID and EX. -/
def Obligations.UnrecognisedWordsAreNoOps : Prop :=
  (∀ w : Word, (∃ why, decode w = .unknown why) ↔
    ((opcodeOf w = 0#6 ∧ ((functOf w).toNat ∈ [1, 5, 40, 41] ∨ (10 ≤ (functOf w).toNat ∧ (functOf w).toNat ≤ 31) ∨
        44 ≤ (functOf w).toNat)) ∨
     (16 ≤ (opcodeOf w).toNat ∧ (opcodeOf w).toNat ≤ 34) ∨ (36 ≤ (opcodeOf w).toNat ∧ (opcodeOf w).toNat ≤ 42) ∨
     44 ≤ (opcodeOf w).toNat ∨
     (opcodeOf w = 1#6 ∧ (rtOf w).toNat ∉ [0, 1, 16, 17]))) ∧
  (∀ (s : State) (why : Unrecognised), s.run = .running → s.InCode → decode s.fetch = .unknown why →
    ∃ t, step s = .next t ∧ t.pc = s.pc + 1#32 ∧ SameRegs s t ∧ SameMem s t ∧ t.code = s.code ∧ t.run = .running ∧
      t.fault = s.fault ∧ t.cycle = s.cycle + 3 ∧ t.instrNo = s.instrNo + 1 ∧
      t.trace = s.trace ++ [⟨s.cycle, s.instrNo, .IF⟩, ⟨s.cycle + 1, s.instrNo, .ID⟩, ⟨s.cycle + 2, s.instrNo, .EX⟩])

/-! ## R-format arithmetic, logic and compare -/

/-- Rules R120 and R123: ADD is the signed sum and ADDU the unsigned sum, both modulo 2^32 and the same pattern for all
inputs; no other field is looked at, no fault is raised. -/
def Obligations.AddAndAdduWrap : Prop :=
  ∀ (rd rs rt : RegIdx) (sh : BitVec 5) (s : State),
    decode (encR 0x20#6 rd rs rt sh) = .instr (.add rd rs rt) ∧
    decode (encR 0x21#6 rd rs rt sh) = .instr (.addu rd rs rt) ∧
    WritesReg (.add rd rs rt) rd (BitVec.ofInt 32 ((s.readReg rs).toInt + (s.readReg rt).toInt)) s ∧
    WritesReg (.addu rd rs rt) rd (BitVec.ofNat 32 ((s.readReg rs).toNat + (s.readReg rt).toNat)) s ∧
    BitVec.ofInt 32 ((s.readReg rs).toInt + (s.readReg rt).toInt) =
      BitVec.ofNat 32 ((s.readReg rs).toNat + (s.readReg rt).toNat)

/-- Rules R121 and R122: SUB is the signed difference and SUBU the unsigned difference, both modulo 2^32 and the same
pattern for all inputs. -/
def Obligations.SubAndSubuWrap : Prop :=
  ∀ (rd rs rt : RegIdx) (sh : BitVec 5) (s : State),
    decode (encR 0x22#6 rd rs rt sh) = .instr (.sub rd rs rt) ∧
    decode (encR 0x23#6 rd rs rt sh) = .instr (.subu rd rs rt) ∧
    WritesReg (.sub rd rs rt) rd (BitVec.ofInt 32 ((s.readReg rs).toInt - (s.readReg rt).toInt)) s ∧
    WritesReg (.subu rd rs rt) rd (BitVec.ofInt 32 (((s.readReg rs).toNat : Int) - ((s.readReg rt).toNat : Int))) s ∧
    BitVec.ofInt 32 ((s.readReg rs).toInt - (s.readReg rt).toInt) =
      BitVec.ofInt 32 (((s.readReg rs).toNat : Int) - ((s.readReg rt).toNat : Int))

/-- Rules R124 and R172: AND and ANDI are boolean, 1 exactly when both operands are nonzero and 0 otherwise; the extended
immediate is nonzero exactly when the field is. -/
def Obligations.AndIsBoolean : Prop :=
  ∀ (rd rs rt : RegIdx) (sh : BitVec 5) (imm : Imm16) (s : State),
    decode (encR 0x24#6 rd rs rt sh) = .instr (.and rd rs rt) ∧
    decode (encI 0x0C#6 rt rs imm) = .instr (.andi rt rs imm) ∧
    WritesReg (.and rd rs rt) rd
      (if (s.readReg rs).toInt ≠ 0 ∧ (s.readReg rt).toInt ≠ 0 then 1#32 else 0#32) s ∧
    WritesReg (.andi rt rs imm) rt (if (s.readReg rs).toInt ≠ 0 ∧ imm.toNat ≠ 0 then 1#32 else 0#32) s ∧
    ((simm imm).toInt ≠ 0 ↔ imm.toNat ≠ 0)

/-- Rules R125, R126 and R127: OR, XOR and NOR work bit by bit. -/
def Obligations.OrXorNorAreBitwise : Prop :=
  ∀ (rd rs rt : RegIdx) (sh : BitVec 5) (s : State),
    decode (encR 0x25#6 rd rs rt sh) = .instr (.or rd rs rt) ∧
    decode (encR 0x26#6 rd rs rt sh) = .instr (.xor rd rs rt) ∧
    decode (encR 0x27#6 rd rs rt sh) = .instr (.nor rd rs rt) ∧
    (∃ v, WritesReg (.or rd rs rt) rd v s ∧
      ∀ k, k < 32 → v.getLsbD k = ((s.readReg rs).getLsbD k || (s.readReg rt).getLsbD k)) ∧
    (∃ v, WritesReg (.xor rd rs rt) rd v s ∧
      ∀ k, k < 32 → v.getLsbD k = ((s.readReg rs).getLsbD k != (s.readReg rt).getLsbD k)) ∧
    (∃ v, WritesReg (.nor rd rs rt) rd v s ∧
      ∀ k, k < 32 → v.getLsbD k = !((s.readReg rs).getLsbD k || (s.readReg rt).getLsbD k))

/-- Rules R128 and R129: SLT compares signed values, SLTU unsigned ones; they diverge on -1 and 1. -/
def Obligations.SetLessThanSignedAndUnsigned : Prop :=
  ∀ (rd rs rt : RegIdx) (sh : BitVec 5) (s : State),
    decode (encR 0x2A#6 rd rs rt sh) = .instr (.slt rd rs rt) ∧
    decode (encR 0x2B#6 rd rs rt sh) = .instr (.sltu rd rs rt) ∧
    WritesReg (.slt rd rs rt) rd (if (s.readReg rs).toInt < (s.readReg rt).toInt then 1#32 else 0#32) s ∧
    WritesReg (.sltu rd rs rt) rd (if (s.readReg rs).toNat < (s.readReg rt).toNat then 1#32 else 0#32) s ∧
    ((s.readReg rs).toInt = -1 → (s.readReg rt).toInt = 1 →
      WritesReg (.slt rd rs rt) rd 1#32 s ∧ WritesReg (.sltu rd rs rt) rd 0#32 s)

/-! ## R-format shifts -/

/-- Rule R141: SLL's amount is `x[0]`, always 0, so it copies `x[rt]`, never faults, and the written `sa` has no effect;
with `SHAMT_SOURCE = SHAMT_FIELD` the amount would be the field, always in range. -/
def Obligations.SllCopies : Prop :=
  ∀ (rd rs rt : RegIdx) (sa : BitVec 5) (s : State),
    decode (encR 0x00#6 rd rs rt sa) = .instr (.sll rd rt sa) ∧
    fixedAmount 0x00#6 sa s = .ok 0 ∧
    WritesReg (.sll rd rt sa) rd (s.readReg rt) s ∧
    ∀ p f, shiftAmount p (fixedSource .shamtField f sa s) = .ok sa.toNat

/-- Rule R142: SLLV multiplies by 2^n modulo 2^32 for `n = signed(x[rs])` in 0..31 and raises `ShiftOutOfRange(n)`
otherwise; under `MASK5` an amount of 32 or -1 would be 0 or 31. -/
def Obligations.SllvShiftsOrFaults : Prop :=
  (∀ (rd rs rt : RegIdx) (sh : BitVec 5) (s : State),
    decode (encR 0x04#6 rd rs rt sh) = .instr (.sllv rd rt rs) ∧
    (0 ≤ (s.readReg rs).toInt ∧ (s.readReg rs).toInt ≤ 31 →
      WritesReg (.sllv rd rt rs) rd (BitVec.ofNat 32 ((s.readReg rt).toNat * 2 ^ (s.readReg rs).toNat)) s) ∧
    (¬ (0 ≤ (s.readReg rs).toInt ∧ (s.readReg rs).toInt ≤ 31) →
      Raises (.sllv rd rt rs) .shiftOutOfRange (s.readReg rs).toInt s)) ∧
  shiftAmount .mask5 32 = .ok 0 ∧ shiftAmount .mask5 (-1) = .ok 31

/-- Rules R143 and R144: SRA and SRL take their amount from `x[3]` and `x[2]`, whatever the other fields say, and both
shift arithmetically: the signed value divided by 2^n, rounded down. -/
def Obligations.SraAndSrlShiftByTheirRegister : Prop :=
  ∀ (rd rs rt : RegIdx) (sa : BitVec 5) (s : State),
    decode (encR 0x03#6 rd rs rt sa) = .instr (.sra rd rt sa) ∧
    decode (encR 0x02#6 rd rs rt sa) = .instr (.srl rd rt sa) ∧
    (0 ≤ (s.readReg 3#5).toInt ∧ (s.readReg 3#5).toInt ≤ 31 →
      WritesReg (.sra rd rt sa) rd (BitVec.ofInt 32 ((s.readReg rt).toInt / 2 ^ (s.readReg 3#5).toNat)) s) ∧
    (¬ (0 ≤ (s.readReg 3#5).toInt ∧ (s.readReg 3#5).toInt ≤ 31) →
      Raises (.sra rd rt sa) .shiftOutOfRange (s.readReg 3#5).toInt s) ∧
    (0 ≤ (s.readReg 2#5).toInt ∧ (s.readReg 2#5).toInt ≤ 31 →
      WritesReg (.srl rd rt sa) rd (BitVec.ofInt 32 ((s.readReg rt).toInt / 2 ^ (s.readReg 2#5).toNat)) s) ∧
    (¬ (0 ≤ (s.readReg 2#5).toInt ∧ (s.readReg 2#5).toInt ≤ 31) →
      Raises (.srl rd rt sa) .shiftOutOfRange (s.readReg 2#5).toInt s)

/-- Rules R145 and R146: SRAV and SRLV shift arithmetically by `signed(x[rs])`, are identical, and raise
`ShiftOutOfRange` outside 0..31. -/
def Obligations.SravAndSrlvAreOneShift : Prop :=
  ∀ (rd rs rt : RegIdx) (sh : BitVec 5) (s : State),
    decode (encR 0x07#6 rd rs rt sh) = .instr (.srav rd rt rs) ∧
    decode (encR 0x06#6 rd rs rt sh) = .instr (.srlv rd rt rs) ∧
    exec (.srlv rd rt rs) s = exec (.srav rd rt rs) s ∧
    (0 ≤ (s.readReg rs).toInt ∧ (s.readReg rs).toInt ≤ 31 →
      WritesReg (.srav rd rt rs) rd (BitVec.ofInt 32 ((s.readReg rt).toInt / 2 ^ (s.readReg rs).toNat)) s ∧
      WritesReg (.srlv rd rt rs) rd (BitVec.ofInt 32 ((s.readReg rt).toInt / 2 ^ (s.readReg rs).toNat)) s) ∧
    (¬ (0 ≤ (s.readReg rs).toInt ∧ (s.readReg rs).toInt ≤ 31) →
      Raises (.srav rd rt rs) .shiftOutOfRange (s.readReg rs).toInt s ∧
      Raises (.srlv rd rt rs) .shiftOutOfRange (s.readReg rs).toInt s)

/-! ## Jump-register -/

/-- Rules R160 and R161: JR and JALR jump to the index in `x[rs]` as it was before the link write, JALR links into R31
alone; the rt, rd and shamt fields are ignored; under `LINK_FIRST` `JALR R31` would go to the next instruction. -/
def Obligations.JumpRegisterTargets : Prop :=
  ∀ (rd rs rt : RegIdx) (sh : BitVec 5) (s : State),
    decode (encR 0x08#6 rd rs rt sh) = .instr (.jr rs) ∧
    decode (encR 0x09#6 rd rs rt sh) = .instr (.jalr rs) ∧
    MovesPc (.jr rs) (s.readReg rs) s ∧
    MovesPcAndLinks (.jalr rs) (s.readReg rs) s ∧
    jalrTarget .linkFirst linkReg s = s.pc

/-! ## I-format arithmetic, logic, compare and LUI -/

/-- Rules R170 and R171: ADDI and ADDIU add the sign-extended immediate modulo 2^32, signed and unsigned, and give the same
pattern. -/
def Obligations.AddImmediateWraps : Prop :=
  ∀ (rt rs : RegIdx) (imm : Imm16) (s : State),
    decode (encI 0x08#6 rt rs imm) = .instr (.addi rt rs imm) ∧
    decode (encI 0x09#6 rt rs imm) = .instr (.addiu rt rs imm) ∧
    WritesReg (.addi rt rs imm) rt (BitVec.ofInt 32 ((s.readReg rs).toInt + imm.toInt)) s ∧
    WritesReg (.addiu rt rs imm) rt (BitVec.ofNat 32 ((s.readReg rs).toNat + (simm imm).toNat)) s ∧
    BitVec.ofInt 32 ((s.readReg rs).toInt + imm.toInt) = BitVec.ofNat 32 ((s.readReg rs).toNat + (simm imm).toNat)

/-- Rules R173 and R174: ORI and XORI work bit by bit on the sign-extended immediate: bit k of it is bit k of the field
below 16 and the field's bit 15 above. -/
def Obligations.OrAndXorImmediateAreSigned : Prop :=
  ∀ (rt rs : RegIdx) (imm : Imm16) (s : State),
    decode (encI 0x0D#6 rt rs imm) = .instr (.ori rt rs imm) ∧
    decode (encI 0x0E#6 rt rs imm) = .instr (.xori rt rs imm) ∧
    (∃ v, WritesReg (.ori rt rs imm) rt v s ∧ ∀ k, k < 32 →
      v.getLsbD k = ((s.readReg rs).getLsbD k || imm.getLsbD (if k < 16 then k else 15))) ∧
    (∃ v, WritesReg (.xori rt rs imm) rt v s ∧ ∀ k, k < 32 →
      v.getLsbD k = ((s.readReg rs).getLsbD k != imm.getLsbD (if k < 16 then k else 15)))

/-- Rules R175 and R176: SLTI compares with the signed immediate; SLTIU sign-extends it and compares as unsigned. -/
def Obligations.SetLessThanImmediate : Prop :=
  ∀ (rt rs : RegIdx) (imm : Imm16) (s : State),
    decode (encI 0x0A#6 rt rs imm) = .instr (.slti rt rs imm) ∧
    decode (encI 0x0B#6 rt rs imm) = .instr (.sltiu rt rs imm) ∧
    WritesReg (.slti rt rs imm) rt (if (s.readReg rs).toInt < imm.toInt then 1#32 else 0#32) s ∧
    WritesReg (.sltiu rt rs imm) rt
      (if ((s.readReg rs).toNat : Int) < imm.toInt % 2 ^ 32 then 1#32 else 0#32) s

/-- Rule R177: LUI writes the immediate over a zero lower half, which is `(simm << 16) mod 2^32`; it makes no memory
access, raises no fault, and ignores the rs field. -/
def Obligations.LuiLoadsUpperHalf : Prop :=
  ∀ (rt rs : RegIdx) (imm : Imm16) (s : State),
    decode (encI 0x0F#6 rt rs imm) = .instr (.lui rt imm) ∧
    WritesReg (.lui rt imm) rt (BitVec.ofNat 32 (imm.toNat * 65536)) s ∧
    simm imm <<< 16 = BitVec.ofNat 32 (imm.toNat * 65536)

/-! ## Loads and stores -/

/-- Rules R190 and R191: LW's address, its two faults with the misaligned one first, and its completion: the word at the
address into `x[rt]` (nothing, if rt is register 0), nothing else changed. -/
def Obligations.LoadWordReadsOrFaults : Prop :=
  ∀ (rt rs : RegIdx) (imm : Imm16) (s : State),
    decode (encI 0x23#6 rt rs imm) = .instr (.lw rt rs imm) ∧
    effectiveAddr rs imm s = BitVec.ofInt 32 ((s.readReg rs).toInt + imm.toInt) ∧
    ((effectiveAddr rs imm s).toNat % 4 ≠ 0 →
      Raises (.lw rt rs imm) .misalignedAccess (effectiveAddr rs imm s).toInt s) ∧
    ((effectiveAddr rs imm s).toNat % 4 = 0 →
      ¬ (0 ≤ (effectiveAddr rs imm s).toInt ∧ (effectiveAddr rs imm s).toInt ≤ 996) →
      Raises (.lw rt rs imm) .outOfBounds (effectiveAddr rs imm s).toInt s) ∧
    ((effectiveAddr rs imm s).toNat % 4 = 0 →
      (0 ≤ (effectiveAddr rs imm s).toInt ∧ (effectiveAddr rs imm s).toInt ≤ 996) →
      ∃ t, exec (.lw rt rs imm) s = .next t ∧
        t.readReg rt = (if rt = 0#5 then 0#32 else s.mem.readWord (effectiveAddr rs imm s).toNat) ∧
        SameRegsBut rt s t ∧ t.pc = s.pc ∧ t.report = ⟨true, true⟩ ∧ SameMem s t ∧ SameRun s t)

/-- Rule R192: SW's faults, and its completion: the word at the address becomes `x[rt]`, every byte outside its four is
unchanged, and nothing else changes. The canonical memory is the machine's invariant (StepKeepsMachineInvariant). -/
def Obligations.StoreWordWritesOrFaults : Prop :=
  ∀ (rt rs : RegIdx) (imm : Imm16) (s : State), s.mem.wf →
    decode (encI 0x2B#6 rt rs imm) = .instr (.sw rt rs imm) ∧
    ((effectiveAddr rs imm s).toNat % 4 ≠ 0 →
      Raises (.sw rt rs imm) .misalignedAccess (effectiveAddr rs imm s).toInt s) ∧
    ((effectiveAddr rs imm s).toNat % 4 = 0 →
      ¬ (0 ≤ (effectiveAddr rs imm s).toInt ∧ (effectiveAddr rs imm s).toInt ≤ 996) →
      Raises (.sw rt rs imm) .outOfBounds (effectiveAddr rs imm s).toInt s) ∧
    ((effectiveAddr rs imm s).toNat % 4 = 0 →
      (0 ≤ (effectiveAddr rs imm s).toInt ∧ (effectiveAddr rs imm s).toInt ≤ 996) →
      ∃ t, exec (.sw rt rs imm) s = .next t ∧
        t.mem.readWord (effectiveAddr rs imm s).toNat = s.readReg rt ∧
        (∀ a, a < (effectiveAddr rs imm s).toNat ∨ (effectiveAddr rs imm s).toNat + 4 ≤ a →
          t.mem.readByte a = s.mem.readByte a) ∧
        SameRegs s t ∧ t.pc = s.pc ∧ t.report = ⟨true, false⟩ ∧ SameRun s t)

/-- Rules R51, R52, R53 and R56, on the primitives themselves: misaligned first, then out of range, else the read gives the addressed
word and the write changes exactly that word's four bytes and only the memory. -/
def Obligations.MemoryPrimitivesCheckAndAccess : Prop :=
  ∀ (a v : Word) (s : State), s.mem.wf →
    (a.toNat % 4 ≠ 0 →
      s.memRead a = .error (.raised .misalignedAccess a.toInt) ∧
      s.memWrite a v = .error (.raised .misalignedAccess a.toInt)) ∧
    (a.toNat % 4 = 0 → ¬ (0 ≤ a.toInt ∧ a.toInt ≤ 996) →
      s.memRead a = .error (.raised .outOfBounds a.toInt) ∧
      s.memWrite a v = .error (.raised .outOfBounds a.toInt)) ∧
    (a.toNat % 4 = 0 → 0 ≤ a.toInt ∧ a.toInt ≤ 996 →
      s.memRead a = .ok (s.mem.readWord (4 * (a.toInt / 4).toNat)) ∧
      ∃ t, s.memWrite a v = .ok t ∧ t.memRead a = .ok v ∧
        (∀ b, b < a.toNat ∨ a.toNat + 4 ≤ b → t.mem.readByte b = s.mem.readByte b) ∧
        t.pc = s.pc ∧ t.report = s.report ∧ SameRegs s t ∧ SameRun s t)

/-- Rule R63: a load that follows a store to the same address returns the stored value, and a load from any other word
returns what it held before the store (into register 0, both are discarded). -/
def Obligations.LoadReturnsMostRecentStore : Prop :=
  ∀ (rt rs rt' rs' : RegIdx) (imm imm' : Imm16) (s t u : State), s.mem.wf →
    exec (.sw rt rs imm) s = .next t → exec (.lw rt' rs' imm') t = .next u →
    u.readReg rt' =
      if rt' = 0#5 then 0#32
      else if effectiveAddr rs' imm' t = effectiveAddr rs imm s then s.readReg rt
      else s.mem.readWord (effectiveAddr rs' imm' t).toNat

/-! ## Branches and jumps -/

/-- Rules R200, R201 and R202: BEQ and BNE, taken to the advanced pc plus the signed word offset modulo 2^32, else to the
advanced pc. -/
def Obligations.BranchOnEquality : Prop :=
  ∀ (rs rt : RegIdx) (off : Imm16) (s : State),
    decode (encI 0x04#6 rt rs off) = .instr (.beq rs rt off) ∧
    decode (encI 0x05#6 rt rs off) = .instr (.bne rs rt off) ∧
    MovesPc (.beq rs rt off)
      (if s.readReg rs = s.readReg rt then BitVec.ofInt 32 (s.pc.toInt + off.toInt) else s.pc) s ∧
    MovesPc (.bne rs rt off)
      (if s.readReg rs = s.readReg rt then s.pc else BitVec.ofInt 32 (s.pc.toInt + off.toInt)) s

/-- Rules R203 and R204: BGTZ and BLEZ test the signed value of `x[rs]`; the rt field is ignored. -/
def Obligations.BranchOnSign : Prop :=
  ∀ (rs rt : RegIdx) (off : Imm16) (s : State),
    decode (encI 0x07#6 rt rs off) = .instr (.bgtz rs off) ∧
    decode (encI 0x06#6 rt rs off) = .instr (.blez rs off) ∧
    MovesPc (.bgtz rs off)
      (if 0 < (s.readReg rs).toInt then BitVec.ofInt 32 (s.pc.toInt + off.toInt) else s.pc) s ∧
    MovesPc (.blez rs off)
      (if 0 < (s.readReg rs).toInt then s.pc else BitVec.ofInt 32 (s.pc.toInt + off.toInt)) s

/-- Rules R206 and R208: BGEZ and BLTZ, opcode 1 with sub-codes 1 and 0. -/
def Obligations.BranchOnNegative : Prop :=
  ∀ (rs : RegIdx) (off : Imm16) (s : State),
    decode (encI 0x01#6 1#5 rs off) = .instr (.bgez rs off) ∧
    decode (encI 0x01#6 0#5 rs off) = .instr (.bltz rs off) ∧
    MovesPc (.bgez rs off)
      (if 0 ≤ (s.readReg rs).toInt then BitVec.ofInt 32 (s.pc.toInt + off.toInt) else s.pc) s ∧
    MovesPc (.bltz rs off)
      (if 0 ≤ (s.readReg rs).toInt then s.pc else BitVec.ofInt 32 (s.pc.toInt + off.toInt)) s

/-- Rules R207 and R209: BGEZAL and BLTZAL link the advanced pc into R31 whether or not they branch, and test `x[rs]` as it
was before the link write. -/
def Obligations.LinkBranchesAlwaysLink : Prop :=
  ∀ (rs : RegIdx) (off : Imm16) (s : State),
    decode (encI 0x01#6 17#5 rs off) = .instr (.bgezal rs off) ∧
    decode (encI 0x01#6 16#5 rs off) = .instr (.bltzal rs off) ∧
    MovesPcAndLinks (.bgezal rs off)
      (if 0 ≤ (s.readReg rs).toInt then BitVec.ofInt 32 (s.pc.toInt + off.toInt) else s.pc) s ∧
    MovesPcAndLinks (.bltzal rs off)
      (if 0 ≤ (s.readReg rs).toInt then s.pc else BitVec.ofInt 32 (s.pc.toInt + off.toInt)) s

/-- Rules R220 and R221: J and JAL are relative to the advanced pc by the signed 26-bit offset, and JAL links that same
pc; with `J_OFFSET_SIGNED = false` the offset of `J -1` would be 2^26 - 1. -/
def Obligations.JumpsAreRelative : Prop :=
  (∀ (target : Target26) (s : State),
    decode (encJ 0x02#6 target) = .instr (.j target) ∧
    decode (encJ 0x03#6 target) = .instr (.jal target) ∧
    MovesPc (.j target) (BitVec.ofInt 32 (s.pc.toInt + target.toInt)) s ∧
    MovesPcAndLinks (.jal target) (BitVec.ofInt 32 (s.pc.toInt + target.toInt)) s) ∧
  (ext26 false 0x3FFFFFF#26).toInt = 2 ^ 26 - 1

/-! ## The run loop -/

/-- Rule R236: one step from RUNNING. Past the end of the code the machine halts, with the trace and the dump to observe;
with a negative pc it faults; otherwise the word at the pc is fetched and decoded, the pc is advanced, and the instruction
(or the no-op) is executed: its completion is traced, its fault leaves the state as before the fetch, with the record. -/
def Obligations.StepRunsDecodedInstruction : Prop :=
  ∀ s : State, s.run = .running →
    ((s.codeLen : Int) ≤ s.pc.toInt →
      ∃ t, step s = .next t ∧ t = { s with run := .halted } ∧ t.observe = some (.halted s.trace s.finalDump)) ∧
    (s.pc.toInt < 0 →
      step s = .next { s with run := .faulted, fault := some ⟨.pcOutOfBounds, s.pc.toInt, s.pc, s.instrNo⟩ }) ∧
    (s.InCode →
      s.code[s.pc.toNat]? = some s.fetch ∧
      (∀ i t, decode s.fetch = .instr i → exec i (s.setPc (s.pc + 1#32)) = .next t →
        step s = .next t.traceReport) ∧
      (∀ why t, decode s.fetch = .unknown why → execNoOp (s.setPc (s.pc + 1#32)) = .next t →
        step s = .next t.traceReport) ∧
      (∀ i kind info, decode s.fetch = .instr i → exec i (s.setPc (s.pc + 1#32)) = .fault (.raised kind info) →
        step s = .next { s with run := .faulted, fault := some ⟨kind, info, s.pc, s.instrNo⟩ }) ∧
      ∃ t, step s = .next t)

/-- Rule R235: a loaded machine starts in RUNNING, and HALTED and FAULTED are terminal. That a step of a stopped machine
is answered by a named fault is the model's choice (assumption log entry 6). -/
def Obligations.StoppedMachinesHaveNoStep : Prop :=
  (∀ im s, load im = some s → s.run = .running) ∧
  (∀ s : State, s.run = .halted ∨ s.run = .faulted → ∀ t, step s ≠ .next t)

/-- Rule R237: a step reaches HALTED exactly when the pc is past the end of the code at loop entry; a run that never brings
the pc there, and does not fault, goes on for ever; a branch to itself is such a run. -/
def Obligations.HaltsExactlyPastTheCode : Prop :=
  (∀ s t : State, s.run = .running → step s = .next t → (t.run = .halted ↔ (s.codeLen : Int) ≤ s.pc.toInt)) ∧
  (∀ s : State, s.run = .running →
    (∀ k t, iterations k s = .next t → t.pc.toInt < (t.codeLen : Int) ∧ t.run ≠ .faulted) →
    ∀ k, ∃ t, iterations k s = .next t ∧ t.run = .running) ∧
  (∀ s : State, s.run = .running → s.InCode → decode s.fetch = .instr (.beq 0#5 0#5 0xFFFF#16) →
    ∀ k, ∃ t, iterations k s = .next t ∧ t.run = .running ∧ t.pc = s.pc)

/-- Rules R107, R234 and R262: a step that faults leaves every register, memory byte, the pc, the code, the trace and its
counters as before the fetch, and its record names the faulting index and the number it would have carried; the observer
sees the trace of the completed instructions and the record, and no further step exists. -/
def Obligations.FaultingStepChangesNothingElse : Prop :=
  ∀ s t : State, step s = .next t → t.run = .faulted →
    SameRegs s t ∧ SameMem s t ∧ t.pc = s.pc ∧ t.code = s.code ∧ t.cycle = s.cycle ∧ t.instrNo = s.instrNo ∧
    t.trace = s.trace ∧
    (∃ r, t.fault = some r ∧ r.faultPc = s.pc ∧ r.instrNo = s.instrNo ∧ t.observe = some (.faulted s.trace r)) ∧
    ∀ u, step t ≠ .next u

/-- Rule R261: a step from RUNNING faults with a kind and recorded value exactly when the table says so; no other
condition faults; the codes are 1 to 4. -/
def Obligations.FaultsExactlyAsTabled : Prop :=
  (∀ (s : State) (kind : FaultKind) (info : Int), s.run = .running →
    ((∃ t, step s = .next t ∧ t.run = .faulted ∧ t.fault = some ⟨kind, info, s.pc, s.instrNo⟩) ↔
      FaultCause s info kind)) ∧
  FaultKind.misalignedAccess.code = 1 ∧ FaultKind.outOfBounds.code = 2 ∧ FaultKind.shiftOutOfRange.code = 3 ∧
  FaultKind.pcOutOfBounds.code = 4

/-- Rule R103: the stage-activity report of each instruction whenever it completes, and of an unrecognised encoding. -/
def Obligations.ReportsAreAsTabled : Prop :=
  (∀ (i : Instr) (s t : State), exec i s = .next t → t.report = reportOf i) ∧
  (∀ s t : State, execNoOp s = .next t → t.report = ⟨false, false⟩)

/-- Rules R232 and R298: an instruction or unrecognised word that completes emits exactly the tabled stages, with
consecutive cycle numbers from `C` on and all with its instruction number, and advances `C` by their number and `N` by
one. -/
def Obligations.CompletedInstructionsAreTraced : Prop :=
  ∀ s t : State, s.run = .running → s.InCode → step s = .next t → t.run = .running →
    ∃ es : List TraceEntry, t.trace = s.trace ++ es ∧ es.map (·.stage) = tabledStages (decode s.fetch) ∧
      es.map (·.cycle) = List.range' s.cycle es.length ∧ (∀ e ∈ es, e.instrNo = s.instrNo) ∧
      t.cycle = s.cycle + es.length ∧ t.instrNo = s.instrNo + 1

/-- Rule R26: an iteration that completes leaves the pc one further on, unless the instruction is a branch or a jump. -/
def Obligations.OnlyBranchesAndJumpsRedirect : Prop :=
  ∀ s t : State, s.InCode → step s = .next t → t.run = .running → t.pc ≠ s.pc + 1#32 →
    ∃ i, decode s.fetch = .instr i ∧ redirects i = true

/-- Rule R23, the write column: a completed instruction changes no register but its tabled one, and only SW changes
memory. -/
def Obligations.RegisterWritesAreAsTabled : Prop :=
  ∀ (i : Instr) (s t : State), exec i s = .next t →
    (∀ j, destReg i ≠ some j → t.readReg j = s.readReg j) ∧
    ((∀ rt rs imm, i ≠ .sw rt rs imm) → SameMem s t) ∧ SameRun s t

/-- Rule R23, the read column: two states that agree on an instruction's tabled source registers, on the pc and on memory
give the same fault, or the same pc, memory, report and destination register. -/
def Obligations.ReadsOnlyTabledRegisters : Prop :=
  ∀ (i : Instr) (s₁ s₂ : State), (∀ j ∈ sourceRegs i, s₁.readReg j = s₂.readReg j) → s₁.pc = s₂.pc → s₁.mem = s₂.mem →
    (∀ f, exec i s₁ = .fault f ↔ exec i s₂ = .fault f) ∧
    (∀ t₁, exec i s₁ = .next t₁ → ∃ t₂, exec i s₂ = .next t₂ ∧ t₁.pc = t₂.pc ∧ t₁.mem = t₂.mem ∧
      t₁.report = t₂.report ∧ ∀ d, destReg i = some d → t₁.readReg d = t₂.readReg d)

/-- Rule R21, and the write port of rule R102: register 0 reads 0 whatever was loaded or written, a write to it changes nothing, and a write to any
other register sets all of it and no other. -/
def Obligations.RegisterZeroReadsZero : Prop :=
  (∀ s : State, s.readReg 0#5 = 0#32) ∧
  (∀ (s : State) (v : Word), s.writeReg 0#5 v = s) ∧
  (∀ (s : State) (i j : RegIdx) (v : Word), i ≠ 0#5 →
    (s.writeReg i v).readReg j = (if j = i then v else s.readReg j)) ∧
  (∀ (im : LoadImage) (s : State), load im = some s → s.readReg 0#5 = 0#32)

/-- Rules R28 and R66: no step changes the code. -/
def Obligations.NoStepChangesTheCode : Prop :=
  ∀ s t : State, step s = .next t → t.code = s.code

/-! ## Invariants -/

/-- Every step from a state that meets the machine's invariant leaves one that meets it. The canonical memory and the idle
report in `State.Inv` are the model's choice (assumption log entries 2, 3 and 5). -/
def Obligations.StepKeepsMachineInvariant : Prop :=
  ∀ s t : State, s.Inv → step s = .next t → t.Inv

/-- Rules R232, R233 and R234 as an invariant: every step keeps the trace consecutive and its counters in step with it. -/
def Obligations.StepKeepsTraceInvariant : Prop :=
  ∀ s t : State, s.TraceInv → step s = .next t → t.TraceInv

/-- The state after reset meets both invariants and holds rule R37's values for a configuration that gives nothing. That
reset is the load of the empty configuration is the model's choice (assumption log entry 1), and so are the canonical memory
and the idle report in `State.Inv` (entries 3 and 5). -/
def Obligations.ResetStateIsLegal : Prop :=
  State.reset.Inv ∧ State.reset.TraceInv ∧ load ⟨[], [], []⟩ = some State.reset ∧
  (∀ i, State.reset.readReg i = 0#32) ∧ (∀ a, State.reset.mem.readByte a = 0#8) ∧ State.reset.code = [] ∧
  State.reset.pc = 0#32 ∧ State.reset.run = .running ∧ State.reset.cycle = 1 ∧ State.reset.instrNo = 1 ∧
  State.reset.trace = [] ∧ State.reset.fault = none

/-- A load is admitted exactly when its indices, addresses and code fit (70_reset_and_hazards.md section 1); an admitted one
gives every register and memory word the last value the configuration gives it, else 0, with the pc, the run state and the
counters at their start values. The state also meets both invariants: that `State.Inv` asks for a canonical memory and an
idle report is the model's choice (assumption log entries 3 and 5), not a rule of the spec. -/
def Obligations.LoadGivesTheConfiguredState : Prop :=
  ∀ im : LoadImage,
    ((∃ s, load im = some s) ↔
      (∀ p ∈ im.regs, p.1 < 32) ∧ (∀ p ∈ im.mem, p.1 % 4 = 0 ∧ p.1 ≤ 996) ∧ im.code.length ≤ 1024) ∧
    ∀ s, load im = some s →
      s.readReg 0#5 = 0#32 ∧
      (∀ i : RegIdx, i ≠ 0#5 →
        s.readReg i = ((im.regs.reverse.find? fun p => p.1 == i.toNat).map (·.2)).getD 0#32) ∧
      (∀ k, k < 250 → s.mem.readWord (4 * k) =
        ((im.mem.reverse.find? fun p => p.1 == 4 * k).map (·.2)).getD 0#32) ∧
      s.code = im.code ∧ s.pc = 0#32 ∧ s.run = .running ∧ s.cycle = 1 ∧ s.instrNo = 1 ∧ s.trace = [] ∧
      s.fault = none ∧ s.Inv ∧ s.TraceInv

/-! ## Whole runs and the dump -/

/-- Rule R240: a run from index 0 in which no branch or jump leaves the advanced pc executes exactly `L` iterations, one
after the other with rising instruction numbers, and then halts, unless an iteration faults. -/
def Obligations.StraightLineProgramsRunToTheEnd : Prop :=
  ∀ s : State, s.Inv → s.run = .running → s.pc = 0#32 →
    (∀ k t i u, k < s.codeLen → iterations k s = .next t → decode t.fetch = .instr i →
      redirects i = true → exec i t.advance = .next u → u.pc = t.pc + 1#32) →
    (∃ k t, k ≤ s.codeLen ∧ iterations k s = .next t ∧ t.run = .faulted) ∨
    ((∀ k, k ≤ s.codeLen → ∃ t, iterations k s = .next t ∧ t.run = .running ∧
        t.pc = BitVec.ofNat 32 k ∧ t.instrNo = s.instrNo + k) ∧
      ∃ t, iterations (s.codeLen + 1) s = .next t ∧ t.run = .halted)

/-- Rule R239: the observation of a run is exactly one of three. The run stops in HALTED and shows the trace and the dump;
or it stops in FAULTED and shows the trace and the fault record; or every iteration completes, so that the trace grows by at
least three entries each and the run never stops. A stopped run has one last state. -/
def Obligations.RunsHaveOneOfThreeOutcomes : Prop :=
  ∀ s : State, s.run = .running →
    (∃ k t, iterations k s = .next t ∧ t.run = .halted ∧ t.observe = some (.halted t.trace t.finalDump) ∧
      ∀ j u, iterations j s = .next u → u.run ≠ .running → j = k ∧ u = t) ∨
    (∃ k t r, iterations k s = .next t ∧ t.run = .faulted ∧ t.observe = some (.faulted t.trace r) ∧
      ∀ j u, iterations j s = .next u → u.run ≠ .running → j = k ∧ u = t) ∨
    (∀ k, ∃ t, iterations k s = .next t ∧ t.run = .running ∧ t.observe = none ∧
      s.trace.length + 3 * k ≤ t.trace.length)

/-- Rule R238: a halted machine hands over its trace and its dump, a faulted one no dump; the dump lists exactly the nonzero
registers by index and the nonzero memory words by byte address, each ascending, with their signed values; register 0 never
appears. -/
def Obligations.DumpListsNonzeroAscending : Prop :=
  ∀ s : State,
    (s.run = .halted → s.observe = some (.halted s.trace s.finalDump)) ∧
    (s.run = .faulted → ∀ tr d, s.observe ≠ some (.halted tr d)) ∧
    (∀ n v, (n, v) ∈ s.finalDump.regs ↔
      ∃ i : RegIdx, i.toNat = n ∧ (s.readReg i).toInt = v ∧ v ≠ 0) ∧
    (∀ a v, (a, v) ∈ s.finalDump.mem ↔
      ∃ k, k < 250 ∧ a = 4 * k ∧ (s.mem.readWord (4 * k)).toInt = v ∧ v ≠ 0) ∧
    s.finalDump.regs.Pairwise (fun p q => p.1 < q.1) ∧ s.finalDump.mem.Pairwise (fun p q => p.1 < q.1) ∧
    (∀ v, (0, v) ∉ s.finalDump.regs)
end

