-- ==== Sys2Proof/Laws/Decode.lean ====
section
/-! SUPPORT. What the field extractors read from the words the encoders lay out: each field comes back, bit by bit. -/

namespace Sys2Proof

/-! ## R format -/

section encR
variable (f : Field6) (rd rs rt : RegIdx) (sh : BitVec 5)

theorem opcodeOf_encR : opcodeOf (encR f rd rs rt sh) = 0#6 := by
  apply BitVec.eq_of_getLsbD_eq
  intro i hi
  interval_cases i <;> simp [opcodeOf, encR]

theorem rsOf_encR : rsOf (encR f rd rs rt sh) = rs := by
  apply BitVec.eq_of_getLsbD_eq
  intro i hi
  interval_cases i <;> simp [rsOf, encR]

theorem rtOf_encR : rtOf (encR f rd rs rt sh) = rt := by
  apply BitVec.eq_of_getLsbD_eq
  intro i hi
  interval_cases i <;> simp [rtOf, encR]

theorem rdOf_encR : rdOf (encR f rd rs rt sh) = rd := by
  apply BitVec.eq_of_getLsbD_eq
  intro i hi
  interval_cases i <;> simp [rdOf, encR]

theorem shamtOf_encR : shamtOf (encR f rd rs rt sh) = sh := by
  apply BitVec.eq_of_getLsbD_eq
  intro i hi
  interval_cases i <;> simp [shamtOf, encR]

theorem functOf_encR : functOf (encR f rd rs rt sh) = f := by
  apply BitVec.eq_of_getLsbD_eq
  intro i hi
  interval_cases i <;> simp [functOf, encR]

end encR

/-! ## I format -/

section encI
variable (o : Field6) (rt rs : RegIdx) (imm : Imm16)

theorem opcodeOf_encI : opcodeOf (encI o rt rs imm) = o := by
  apply BitVec.eq_of_getLsbD_eq
  intro i hi
  interval_cases i <;> simp [opcodeOf, encI]

theorem rsOf_encI : rsOf (encI o rt rs imm) = rs := by
  apply BitVec.eq_of_getLsbD_eq
  intro i hi
  interval_cases i <;> simp [rsOf, encI]

theorem rtOf_encI : rtOf (encI o rt rs imm) = rt := by
  apply BitVec.eq_of_getLsbD_eq
  intro i hi
  interval_cases i <;> simp [rtOf, encI]

theorem immOf_encI : immOf (encI o rt rs imm) = imm := by
  apply BitVec.eq_of_getLsbD_eq
  intro i hi
  interval_cases i <;> simp [immOf, encI]

end encI

/-! ## J format -/

section encJ
variable (o : Field6) (t : Target26)

theorem opcodeOf_encJ : opcodeOf (encJ o t) = o := by
  apply BitVec.eq_of_getLsbD_eq
  intro i hi
  interval_cases i <;> simp [opcodeOf, encJ]

theorem targetOf_encJ : targetOf (encJ o t) = t := by
  apply BitVec.eq_of_getLsbD_eq
  intro i hi
  interval_cases i <;> simp [targetOf, encJ]

end encJ

end Sys2Proof
end

