-- ==== Sys2Proof/Laws/Memory.lean ====
section
/-! SUPPORT. The laws of the memory: what a byte or a word reads as after a store, and that every store keeps the canonical
form. -/

namespace Sys2Proof.Machine

theorem Memory.readByte_consCell (m : Memory) (a b : Nat) (v : Byte)
    (h : a = b → v = unlisted b → m.readByte b = unlisted b) :
    readByte (consCell a v m) b = if a = b then v else m.readByte b := by
  unfold consCell
  split_ifs with h1 h2 h2
  · subst h2
    rw [h rfl h1, h1]
  · rfl
  · simp [readByte, h2]
  · simp [readByte, h2]

/-- An address below every listed one is not listed. -/
theorem Memory.readByte_of_lt (m : Memory) (a : Nat) (h : ∀ c ∈ m, a < c.1) : m.readByte a = unlisted a := by
  induction m with
  | nil => rfl
  | cons c m ih =>
    obtain ⟨b, v⟩ := c
    have hb : a < b := h (b, v) (by simp)
    simp only [readByte, Nat.ne_of_gt hb, if_false]
    exact ih fun c hc => h c (by simp [hc])

/-- One byte after a store of one byte. -/
theorem Memory.readByte_writeByte (m : Memory) (hm : m.Pairwise fun c d => c.1 < d.1) (a b : Nat) (v : Byte) :
    (m.writeByte a v).readByte b = if a = b then v else m.readByte b := by
  induction m with
  | nil =>
    rw [writeByte, readByte_consCell _ _ _ _ (fun _ _ => rfl)]
  | cons c m ih =>
    obtain ⟨x, u⟩ := c
    rw [List.pairwise_cons] at hm
    unfold writeByte
    rcases Nat.lt_trichotomy a x with h | h | h
    · rw [if_pos h, readByte_consCell]
      rintro rfl _
      refine readByte_of_lt _ _ fun c hc => ?_
      rcases List.mem_cons.1 hc with rfl | hc
      · exact h
      · exact Nat.lt_trans h (hm.1 c hc)
    · subst h
      rw [if_neg (Nat.lt_irrefl a), if_pos rfl, readByte_consCell]
      · by_cases hb : a = b <;> simp [readByte, hb]
      · rintro rfl _
        exact readByte_of_lt _ _ hm.1
    · rw [if_neg (by omega), if_neg (by omega)]
      simp only [readByte, ih hm.2]
      by_cases hb : x = b
      · subst hb
        rw [if_pos rfl, if_pos rfl, if_neg (by omega)]
      · rw [if_neg hb, if_neg hb]

/-! ## The canonical form -/

theorem Memory.wf_nil : Memory.wf [] := by simp [Memory.wf]

/-- The cells of a memory after a store are the stored one and old ones. -/
theorem Memory.mem_writeByte (m : Memory) (a : Nat) (v : Byte) (c : Host.Cell) (h : c ∈ m.writeByte a v) :
    (c = (a, v) ∧ v ≠ unlisted a) ∨ c ∈ m := by
  induction m with
  | nil =>
    unfold writeByte consCell at h
    split_ifs at h with hv <;> simp_all
  | cons d m ih =>
    obtain ⟨x, u⟩ := d
    unfold writeByte consCell at h
    split_ifs at h <;> simp_all <;> tauto

theorem Memory.pairwise_writeByte (m : Memory) (hm : m.Pairwise fun c d => c.1 < d.1) (a : Nat) (v : Byte) :
    (m.writeByte a v).Pairwise fun c d => c.1 < d.1 := by
  induction m with
  | nil =>
    unfold writeByte consCell
    split_ifs <;> simp
  | cons d m ih =>
    obtain ⟨x, u⟩ := d
    have hp := List.pairwise_cons.1 hm
    unfold writeByte
    split_ifs with h1 h2
    · unfold consCell
      split_ifs
      · exact hm
      · refine List.pairwise_cons.2 ⟨fun c hc => ?_, hm⟩
        rcases List.mem_cons.1 hc with rfl | hc
        · exact h1
        · exact Nat.lt_trans h1 (hp.1 c hc)
    · subst h2
      unfold consCell
      split_ifs
      · exact hp.2
      · exact List.pairwise_cons.2 ⟨hp.1, hp.2⟩
    · refine List.pairwise_cons.2 ⟨fun c hc => ?_, ih hp.2⟩
      rcases mem_writeByte m a v c hc with ⟨rfl, _⟩ | hc
      · show x < a
        omega
      · exact hp.1 c hc

/-- A store inside the data space keeps the canonical form. -/
theorem Memory.wf_writeByte (m : Memory) (hm : m.wf) (a : Nat) (ha : a < memBytes) (v : Byte) :
    (m.writeByte a v).wf := by
  refine ⟨pairwise_writeByte m hm.1 a v, fun c hc => ?_⟩
  rcases mem_writeByte m a v c hc with ⟨rfl, hv⟩ | hc
  · exact ⟨ha, hv⟩
  · exact hm.2 c hc

theorem Memory.pairwise_writeWord (m : Memory) (hm : m.Pairwise fun c d => c.1 < d.1) (a : Nat) (v : Word) :
    (m.writeWord a v).Pairwise fun c d => c.1 < d.1 :=
  pairwise_writeByte _ (pairwise_writeByte _ (pairwise_writeByte _ (pairwise_writeByte _ hm _ _) _ _) _ _) _ _

theorem Memory.wf_writeWord (m : Memory) (hm : m.wf) (a : Nat) (ha : a + 4 ≤ memBytes) (v : Word) :
    (m.writeWord a v).wf :=
  wf_writeByte _ (wf_writeByte _ (wf_writeByte _ (wf_writeByte _ hm _ (by omega) _) _ (by omega) _) _ (by omega) _) _
    (by omega) _

/-! ## Words -/

/-- One byte after a store of one word. -/
theorem Memory.readByte_writeWord (m : Memory) (hm : m.Pairwise fun c d => c.1 < d.1) (a b : Nat) (v : Word) :
    (m.writeWord a v).readByte b =
      if a ≤ b ∧ b < a + 4 then byteOf v (b - a) else m.readByte b := by
  have h0 := pairwise_writeByte m hm a (byteOf v 0)
  have h1 := pairwise_writeByte _ h0 (a + 1) (byteOf v 1)
  have h2 := pairwise_writeByte _ h1 (a + 2) (byteOf v 2)
  unfold writeWord
  rw [readByte_writeByte _ h2, readByte_writeByte _ h1, readByte_writeByte _ h0, readByte_writeByte _ hm]
  by_cases h : a ≤ b ∧ b < a + 4
  · rw [if_pos h]
    obtain ⟨k, rfl⟩ := Nat.exists_eq_add_of_le h.1
    have hk : k < 4 := by omega
    interval_cases k <;> simp
  · rw [if_neg h, if_neg (by omega), if_neg (by omega), if_neg (by omega), if_neg (by omega)]

/-- A word is its four bytes. -/
theorem byteOf_append (v : Word) : byteOf v 3 ++ byteOf v 2 ++ byteOf v 1 ++ byteOf v 0 = v := by
  apply BitVec.eq_of_getLsbD_eq
  intro i hi
  simp only [byteOf, BitVec.getLsbD_append, BitVec.getLsbD_extractLsb']
  by_cases h0 : i < 8
  · simp [h0]
  · by_cases h1 : i < 16
    · simp [h0, show i - 8 < 8 by omega, show 8 + (i - 8) = i by omega]
    · by_cases h2 : i < 24
      · simp [h0, show ¬ i - 8 < 8 by omega, show i - 8 - 8 < 8 by omega, show 16 + (i - 8 - 8) = i by omega]
      · simp [h0, show ¬ i - 8 < 8 by omega, show ¬ i - 8 - 8 < 8 by omega, show i - 8 - 8 - 8 < 8 by omega,
          show 24 + (i - 8 - 8 - 8) = i by omega]

/-- A word reads back as stored. -/
theorem Memory.readWord_writeWord_self (m : Memory) (hm : m.Pairwise fun c d => c.1 < d.1) (a : Nat) (v : Word) :
    (m.writeWord a v).readWord a = v := by
  unfold readWord
  simp only [readByte_writeWord m hm]
  have e3 : a ≤ a + 3 ∧ a + 3 < a + 4 := by omega
  have e2 : a ≤ a + 2 ∧ a + 2 < a + 4 := by omega
  have e1 : a ≤ a + 1 ∧ a + 1 < a + 4 := by omega
  have e0 : a ≤ a ∧ a < a + 4 := by omega
  rw [if_pos e3, if_pos e2, if_pos e1, if_pos e0, show a + 3 - a = 3 by omega, show a + 2 - a = 2 by omega,
    show a + 1 - a = 1 by omega, show a - a = 0 by omega]
  exact byteOf_append v

/-- A word that does not overlap the stored one reads as before. -/
theorem Memory.readWord_writeWord_of_disjoint (m : Memory) (hm : m.Pairwise fun c d => c.1 < d.1) (a b : Nat)
    (h : b + 4 ≤ a ∨ a + 4 ≤ b) (v : Word) : (m.writeWord a v).readWord b = m.readWord b := by
  unfold readWord
  simp only [readByte_writeWord m hm]
  rw [if_neg (by omega), if_neg (by omega), if_neg (by omega), if_neg (by omega)]

/-- Bytes outside a stored word read as before. -/
theorem Memory.readByte_writeWord_of_outside (m : Memory) (hm : m.Pairwise fun c d => c.1 < d.1) (a b : Nat)
    (h : b < a ∨ a + 4 ≤ b) (v : Word) : (m.writeWord a v).readByte b = m.readByte b := by
  rw [readByte_writeWord m hm, if_neg (by omega)]

end Sys2Proof.Machine
end

