-- ==== Sys2Proof/Laws/State.lean ====
section
/-! SUPPORT. One lemma per field per update of the state, so that no later proof unfolds a record update, and the laws of
the register ports. -/

namespace Sys2Proof.Machine

section fields
variable (s : State) (i : RegIdx) (v t : Word) (r : Report) (k : FaultKind) (n : Int)

@[simp] theorem State.setPc_pc : (s.setPc t).pc = t := rfl
@[simp] theorem State.setPc_regs : (s.setPc t).regs = s.regs := rfl
@[simp] theorem State.setPc_mem : (s.setPc t).mem = s.mem := rfl
@[simp] theorem State.setPc_code : (s.setPc t).code = s.code := rfl
@[simp] theorem State.setPc_run : (s.setPc t).run = s.run := rfl
@[simp] theorem State.setPc_fault : (s.setPc t).fault = s.fault := rfl
@[simp] theorem State.setPc_cycle : (s.setPc t).cycle = s.cycle := rfl
@[simp] theorem State.setPc_instrNo : (s.setPc t).instrNo = s.instrNo := rfl
@[simp] theorem State.setPc_trace : (s.setPc t).trace = s.trace := rfl
@[simp] theorem State.setPc_report : (s.setPc t).report = s.report := rfl
@[simp] theorem State.setPc_readReg : (s.setPc t).readReg i = s.readReg i := rfl

@[simp] theorem State.setReport_pc : (s.setReport r).pc = s.pc := rfl
@[simp] theorem State.setReport_regs : (s.setReport r).regs = s.regs := rfl
@[simp] theorem State.setReport_mem : (s.setReport r).mem = s.mem := rfl
@[simp] theorem State.setReport_code : (s.setReport r).code = s.code := rfl
@[simp] theorem State.setReport_run : (s.setReport r).run = s.run := rfl
@[simp] theorem State.setReport_fault : (s.setReport r).fault = s.fault := rfl
@[simp] theorem State.setReport_cycle : (s.setReport r).cycle = s.cycle := rfl
@[simp] theorem State.setReport_instrNo : (s.setReport r).instrNo = s.instrNo := rfl
@[simp] theorem State.setReport_trace : (s.setReport r).trace = s.trace := rfl
@[simp] theorem State.setReport_report : (s.setReport r).report = r := rfl
@[simp] theorem State.setReport_readReg : (s.setReport r).readReg i = s.readReg i := rfl

@[simp] theorem State.writeReg_pc : (s.writeReg i v).pc = s.pc := rfl
@[simp] theorem State.writeReg_regs : (s.writeReg i v).regs = writeSlot Config.zeroReg s.regs i v := rfl
@[simp] theorem State.writeReg_mem : (s.writeReg i v).mem = s.mem := rfl
@[simp] theorem State.writeReg_code : (s.writeReg i v).code = s.code := rfl
@[simp] theorem State.writeReg_run : (s.writeReg i v).run = s.run := rfl
@[simp] theorem State.writeReg_fault : (s.writeReg i v).fault = s.fault := rfl
@[simp] theorem State.writeReg_cycle : (s.writeReg i v).cycle = s.cycle := rfl
@[simp] theorem State.writeReg_instrNo : (s.writeReg i v).instrNo = s.instrNo := rfl
@[simp] theorem State.writeReg_trace : (s.writeReg i v).trace = s.trace := rfl
@[simp] theorem State.writeReg_report : (s.writeReg i v).report = s.report := rfl

@[simp] theorem State.link_pc : s.link.pc = s.pc := rfl
@[simp] theorem State.link_mem : s.link.mem = s.mem := rfl
@[simp] theorem State.link_code : s.link.code = s.code := rfl
@[simp] theorem State.link_run : s.link.run = s.run := rfl
@[simp] theorem State.link_fault : s.link.fault = s.fault := rfl
@[simp] theorem State.link_cycle : s.link.cycle = s.cycle := rfl
@[simp] theorem State.link_instrNo : s.link.instrNo = s.instrNo := rfl
@[simp] theorem State.link_trace : s.link.trace = s.trace := rfl
@[simp] theorem State.link_report : s.link.report = s.report := rfl

@[simp] theorem State.takeFault_pc : (s.takeFault k n).pc = s.pc := rfl
@[simp] theorem State.takeFault_regs : (s.takeFault k n).regs = s.regs := rfl
@[simp] theorem State.takeFault_mem : (s.takeFault k n).mem = s.mem := rfl
@[simp] theorem State.takeFault_code : (s.takeFault k n).code = s.code := rfl
@[simp] theorem State.takeFault_run : (s.takeFault k n).run = .faulted := rfl
@[simp] theorem State.takeFault_fault : (s.takeFault k n).fault = some ⟨k, n, s.pc, s.instrNo⟩ := rfl
@[simp] theorem State.takeFault_cycle : (s.takeFault k n).cycle = s.cycle := rfl
@[simp] theorem State.takeFault_instrNo : (s.takeFault k n).instrNo = s.instrNo := rfl
@[simp] theorem State.takeFault_trace : (s.takeFault k n).trace = s.trace := rfl
@[simp] theorem State.takeFault_report : (s.takeFault k n).report = s.report := rfl
@[simp] theorem State.takeFault_readReg : (s.takeFault k n).readReg i = s.readReg i := rfl

@[simp] theorem State.enterHalted_pc : s.enterHalted.pc = s.pc := rfl
@[simp] theorem State.enterHalted_regs : s.enterHalted.regs = s.regs := rfl
@[simp] theorem State.enterHalted_mem : s.enterHalted.mem = s.mem := rfl
@[simp] theorem State.enterHalted_code : s.enterHalted.code = s.code := rfl
@[simp] theorem State.enterHalted_run : s.enterHalted.run = .halted := rfl
@[simp] theorem State.enterHalted_fault : s.enterHalted.fault = s.fault := rfl
@[simp] theorem State.enterHalted_cycle : s.enterHalted.cycle = s.cycle := rfl
@[simp] theorem State.enterHalted_instrNo : s.enterHalted.instrNo = s.instrNo := rfl
@[simp] theorem State.enterHalted_trace : s.enterHalted.trace = s.trace := rfl
@[simp] theorem State.enterHalted_report : s.enterHalted.report = s.report := rfl
@[simp] theorem State.enterHalted_readReg : s.enterHalted.readReg i = s.readReg i := rfl

@[simp] theorem State.advance_pc : s.advance.pc = s.pc + 1#32 := rfl
@[simp] theorem State.advance_regs : s.advance.regs = s.regs := rfl
@[simp] theorem State.advance_mem : s.advance.mem = s.mem := rfl
@[simp] theorem State.advance_code : s.advance.code = s.code := rfl
@[simp] theorem State.advance_run : s.advance.run = s.run := rfl
@[simp] theorem State.advance_fault : s.advance.fault = s.fault := rfl
@[simp] theorem State.advance_cycle : s.advance.cycle = s.cycle := rfl
@[simp] theorem State.advance_instrNo : s.advance.instrNo = s.instrNo := rfl
@[simp] theorem State.advance_trace : s.advance.trace = s.trace := rfl
@[simp] theorem State.advance_report : s.advance.report = s.report := rfl
@[simp] theorem State.advance_readReg : s.advance.readReg i = s.readReg i := rfl

@[simp] theorem State.traceReport_pc : s.traceReport.pc = s.pc := rfl
@[simp] theorem State.traceReport_regs : s.traceReport.regs = s.regs := rfl
@[simp] theorem State.traceReport_mem : s.traceReport.mem = s.mem := rfl
@[simp] theorem State.traceReport_code : s.traceReport.code = s.code := rfl
@[simp] theorem State.traceReport_run : s.traceReport.run = s.run := rfl
@[simp] theorem State.traceReport_fault : s.traceReport.fault = s.fault := rfl
@[simp] theorem State.traceReport_cycle :
    s.traceReport.cycle = s.cycle + (stagesOf s.report).length := rfl
@[simp] theorem State.traceReport_instrNo : s.traceReport.instrNo = s.instrNo + 1 := rfl
@[simp] theorem State.traceReport_trace :
    s.traceReport.trace = s.trace ++ traceLines s.cycle s.instrNo (stagesOf s.report) := rfl
@[simp] theorem State.traceReport_report : s.traceReport.report = .idle := rfl
@[simp] theorem State.traceReport_readReg : s.traceReport.readReg i = s.readReg i := rfl

@[simp] theorem State.codeLen_eq : s.codeLen = s.code.length := rfl

end fields

/-! ## Register ports (rules R21, R102) -/

theorem readReg_of_ne_zero (s : State) (i : RegIdx) (h : i ≠ 0#5) : s.readReg i = s.regs[i.toNat]'i.isLt := by
  simp [State.readReg, readSlot, h]

theorem readReg_zero_eq (s : State) : s.readReg 0#5 = 0#32 := by
  simp [State.readReg, readSlot, Config.zeroReg]

theorem writeReg_readReg_self (s : State) (i : RegIdx) (v : Word) :
    (s.writeReg i v).readReg i = if i = 0#5 then 0#32 else v := by
  by_cases h : i = 0#5
  · subst h
    simp [readReg_zero_eq]
  · simp [State.readReg, readSlot, writeSlot, h]

theorem writeReg_readReg_ne (s : State) (i j : RegIdx) (v : Word) (h : j ≠ i) :
    (s.writeReg i v).readReg j = s.readReg j := by
  have hn : i.toNat ≠ j.toNat := fun e => h (BitVec.eq_of_toNat_eq e.symm)
  simp only [State.readReg, readSlot, State.writeReg_regs, writeSlot]
  split_ifs <;> simp_all

theorem link_readReg_self (s : State) : s.link.readReg linkReg = s.pc := by
  simp [State.link, writeReg_readReg_self, linkReg]

theorem link_readReg_ne (s : State) (j : RegIdx) (h : j ≠ linkReg) : s.link.readReg j = s.readReg j :=
  writeReg_readReg_ne s linkReg j s.pc h

/-- Slot 0 never changes through the write port. -/
theorem writeReg_slot_zero (s : State) (i : RegIdx) (v : Word) : (s.writeReg i v).regs[0] = s.regs[0] := by
  by_cases h : i = 0#5
  · simp [writeSlot, h, Config.zeroReg]
  · have hn : i.toNat ≠ 0 := fun e => h (BitVec.eq_of_toNat_eq (by simpa using e))
    simp [writeSlot, h, hn]

end Sys2Proof.Machine
end

