-- ==== Sys2Proof/Laws/Ops.lean ====
section
/-! SUPPORT. One spec lemma per shared operation: everything the operation can do, so that no later proof unfolds it. -/

namespace Sys2Proof.Machine

/-! ## The address check (rules R51 to R56) -/

/-- The low two bits of an address are its remainder modulo 4. -/
theorem low_bits_zero_iff (a : Word) : a.extractLsb' 0 2 = 0#2 ↔ a.toNat % 4 = 0 := by
  rw [← BitVec.toNat_inj, BitVec.extractLsb'_toNat]
  simp

/-- A misaligned address faults, whatever its range. -/
theorem wordIndex_misaligned (a : Word) (h : a.toNat % 4 ≠ 0) :
    wordIndex a = .error (.raised .misalignedAccess a.toInt) := by
  simp only [wordIndex, checkAddr]
  rw [if_pos]
  rwa [ne_eq, low_bits_zero_iff]

/-- An aligned address outside 0..996 faults. -/
theorem wordIndex_outOfBounds (a : Word) (h : a.toNat % 4 = 0) (hr : ¬ (0 ≤ a.toInt ∧ a.toInt ≤ 996)) :
    wordIndex a = .error (.raised .outOfBounds a.toInt) := by
  simp only [wordIndex, checkAddr]
  rw [if_neg (by rwa [ne_eq, not_not, low_bits_zero_iff]), if_neg (by simpa [Config.memMaxAddr] using hr)]

/-- An address inside 0..996 is its own unsigned value. -/
theorem toInt_of_range (a : Word) (hr : 0 ≤ a.toInt ∧ a.toInt ≤ 996) : a.toInt = a.toNat ∧ a.toNat ≤ 996 := by
  have := a.isLt
  rw [BitVec.toInt_eq_toNat_cond] at *
  split_ifs at * <;> omega

/-- An aligned address inside 0..996 is word `a / 4`. -/
theorem wordIndex_ok (a : Word) (h : a.toNat % 4 = 0) (hr : 0 ≤ a.toInt ∧ a.toInt ≤ 996) :
    wordIndex a = .ok (a.toNat / 4) := by
  simp only [wordIndex, checkAddr]
  rw [if_neg (by rwa [ne_eq, not_not, low_bits_zero_iff]), if_pos (by simpa [Config.memMaxAddr] using hr), (toInt_of_range a hr).1]
  norm_cast

/-- The three cases of the check. -/
theorem wordIndex_cases (a : Word) :
    (a.toNat % 4 ≠ 0 ∧ wordIndex a = .error (.raised .misalignedAccess a.toInt)) ∨
    (a.toNat % 4 = 0 ∧ ¬ (0 ≤ a.toInt ∧ a.toInt ≤ 996) ∧ wordIndex a = .error (.raised .outOfBounds a.toInt)) ∨
    (a.toNat % 4 = 0 ∧ (0 ≤ a.toInt ∧ a.toInt ≤ 996) ∧ wordIndex a = .ok (a.toNat / 4)) := by
  by_cases h : a.toNat % 4 = 0
  · by_cases hr : 0 ≤ a.toInt ∧ a.toInt ≤ 996
    · exact .inr (.inr ⟨h, hr, wordIndex_ok a h hr⟩)
    · exact .inr (.inl ⟨h, hr, wordIndex_outOfBounds a h hr⟩)
  · exact .inl ⟨h, wordIndex_misaligned a h⟩

/-- A word that passes the check is one of the 250, at the address itself. -/
theorem wordIndex_bounds (a : Word) (k : Nat) (h : wordIndex a = .ok k) :
    k < Config.memWords ∧ wordAddr k = a.toNat := by
  rcases wordIndex_cases a with ⟨_, h'⟩ | ⟨_, _, h'⟩ | ⟨h4, hr, h'⟩
  · simp [h'] at h
  · simp [h'] at h
  · rw [h'] at h
    have hk : a.toNat / 4 = k := by simpa using h
    have := (toInt_of_range a hr).2
    simp only [Config.memWords, wordAddr, Config.memAddrStep]
    omega

/-- The check never raises anything but its two faults. -/
theorem wordIndex_error (a : Word) (f : Fault) (h : wordIndex a = .error f) : ∃ k, f = .raised k a.toInt := by
  rcases wordIndex_cases a with ⟨_, h'⟩ | ⟨_, _, h'⟩ | ⟨_, _, h'⟩
  · exact ⟨_, by simpa using (h'.symm.trans h).symm⟩
  · exact ⟨_, by simpa using (h'.symm.trans h).symm⟩
  · simp [h'] at h

/-! ## The memory primitives -/

theorem memRead_eq (s : State) (a : Word) :
    s.memRead a = (wordIndex a).map fun k => s.mem.readWord (wordAddr k) := by
  unfold State.memRead
  cases wordIndex a <;> rfl

theorem memWrite_eq (s : State) (a v : Word) :
    s.memWrite a v = (wordIndex a).map fun k => { s with mem := s.mem.writeWord (wordAddr k) v } := by
  unfold State.memWrite
  cases wordIndex a <;> rfl

/-! ## Shift amounts (rule R140) -/

theorem shiftAmount_ok (p : ShiftRange) (n : Int) (h : 0 ≤ n ∧ n ≤ 31) : shiftAmount p n = .ok n.toNat := by
  simp [shiftAmount, h]

theorem shiftAmount_fault (n : Int) (h : ¬ (0 ≤ n ∧ n ≤ 31)) :
    shiftAmount Config.shiftRange n = .error (.raised .shiftOutOfRange n) := by
  simp [shiftAmount, h]

theorem fixedAmount_eq (f : Field6) (sa : BitVec 5) (s : State) :
    fixedAmount f sa s = shiftAmount Config.shiftRange (s.readReg (f.setWidth 5)).toInt := rfl

/-! ## Ending an instruction -/

theorem complete_eq (m w : Bool) (s : State) : complete m w s = .next (s.setReport ⟨m, w⟩) := rfl

theorem writeResult_eq (d : RegIdx) (v : Word) (s : State) :
    writeResult d v s = .next ((s.writeReg d v).setReport ⟨false, true⟩) := rfl

end Sys2Proof.Machine
end

