-- ==== Sys2Proof/Laws/Exec.lean ====
section
/-! SUPPORT. What the execution engine and the run loop can do, said once: `exec_cases` for all instructions, `step_cases`
for one iteration. Invariants of the machine follow from these two. -/

namespace Sys2Proof.Machine

/-- What a completed instruction may have done to the parts of the state the invariants speak of: nothing to the code, the
run state, the fault record, the trace and its counters; at most one write through the register port; at most one store
of a word inside the data space. -/
structure Completed (s t : State) : Prop where
  code    : t.code = s.code
  run     : t.run = s.run
  fault   : t.fault = s.fault
  cycle   : t.cycle = s.cycle
  instrNo : t.instrNo = s.instrNo
  trace   : t.trace = s.trace
  regs    : t.regs = s.regs ∨ ∃ d v, t.regs = writeSlot Config.zeroReg s.regs d v
  mem     : t.mem = s.mem ∨ ∃ k v, k < Config.memWords ∧ t.mem = s.mem.writeWord (wordAddr k) v

theorem completed_writeResult (d : RegIdx) (v : Word) (s : State) :
    ∃ t, writeResult d v s = .next t ∧ Completed s t :=
  ⟨_, rfl, rfl, rfl, rfl, rfl, rfl, rfl, .inr ⟨d, v, rfl⟩, .inl rfl⟩

theorem completed_setPc (m w : Bool) (p : Word) (s : State) :
    ∃ t, complete m w (s.setPc p) = .next t ∧ Completed s t :=
  ⟨_, rfl, rfl, rfl, rfl, rfl, rfl, rfl, .inl rfl, .inl rfl⟩

theorem completed_link (m w : Bool) (p : Word) (s : State) :
    ∃ t, complete m w (s.link.setPc p) = .next t ∧ Completed s t :=
  ⟨_, rfl, rfl, rfl, rfl, rfl, rfl, rfl, .inr ⟨linkReg, s.pc, rfl⟩, .inl rfl⟩

theorem completed_branchIf (c : Bool) (off : Imm16) (s : State) : ∃ t, branchIf c off s = .next t ∧ Completed s t := by
  cases c <;> exact ⟨_, rfl, rfl, rfl, rfl, rfl, rfl, rfl, .inl rfl, .inl rfl⟩

theorem completed_linkBranchIf (c : Bool) (off : Imm16) (s : State) :
    ∃ t, linkBranchIf c off s = .next t ∧ Completed s t := by
  cases c <;> exact ⟨_, rfl, rfl, rfl, rfl, rfl, rfl, rfl, .inr ⟨linkReg, s.pc, rfl⟩, .inl rfl⟩

theorem branchIf_eq (c : Bool) (off : Imm16) (s : State) :
    branchIf c off s = .next ((if c then s.setPc (branchTarget off s) else s).setReport ⟨false, false⟩) := rfl

/-- A shift by an amount in range, and one out of range. -/
theorem shiftBy_ok (n : Int) (op : Word → Nat → Word) (d b : RegIdx) (s : State) (h : 0 ≤ n ∧ n ≤ 31) :
    shiftBy (shiftAmount Config.shiftRange n) op d b s = writeResult d (op (s.readReg b) n.toNat) s := by
  rw [shiftAmount_ok _ _ h]
  rfl

theorem shiftBy_fault (n : Int) (op : Word → Nat → Word) (d b : RegIdx) (s : State) (h : ¬ (0 ≤ n ∧ n ≤ 31)) :
    shiftBy (shiftAmount Config.shiftRange n) op d b s = .fault (.raised .shiftOutOfRange n) := by
  rw [shiftAmount_fault _ h]
  rfl

/-- A shift completes or raises its amount's fault. -/
theorem shiftBy_cases (n : Int) (op : Word → Nat → Word) (d b : RegIdx) (s : State) :
    (∃ t, shiftBy (shiftAmount Config.shiftRange n) op d b s = .next t ∧ Completed s t) ∨
    ∃ k i, shiftBy (shiftAmount Config.shiftRange n) op d b s = .fault (.raised k i) := by
  by_cases h : 0 ≤ n ∧ n ≤ 31
  · rw [shiftAmount_ok _ _ h]
    exact .inl (completed_writeResult _ _ _)
  · rw [shiftAmount_fault _ h]
    exact .inr ⟨_, _, rfl⟩

theorem execLw_cases (rt rs : RegIdx) (imm : Imm16) (s : State) :
    (∃ t, execLw rt rs imm s = .next t ∧ Completed s t) ∨ ∃ k i, execLw rt rs imm s = .fault (.raised k i) := by
  unfold execLw
  rw [memRead_eq]
  cases h : wordIndex (effectiveAddr rs imm s) with
  | error f =>
    obtain ⟨k, rfl⟩ := wordIndex_error _ _ h
    exact .inr ⟨_, _, rfl⟩
  | ok k => exact .inl ⟨_, rfl, rfl, rfl, rfl, rfl, rfl, rfl, .inr ⟨rt, _, rfl⟩, .inl rfl⟩

theorem execSw_cases (rt rs : RegIdx) (imm : Imm16) (s : State) :
    (∃ t, execSw rt rs imm s = .next t ∧ Completed s t) ∨ ∃ k i, execSw rt rs imm s = .fault (.raised k i) := by
  unfold execSw
  rw [memWrite_eq]
  cases h : wordIndex (effectiveAddr rs imm s) with
  | error f =>
    obtain ⟨k, rfl⟩ := wordIndex_error _ _ h
    exact .inr ⟨_, _, rfl⟩
  | ok k =>
    exact .inl ⟨_, rfl, rfl, rfl, rfl, rfl, rfl, rfl, .inl rfl, .inr ⟨k, _, (wordIndex_bounds _ _ h).1, rfl⟩⟩

/-- LW on an aligned address in range. -/
theorem execLw_ok (rt rs : RegIdx) (imm : Imm16) (s : State) (h : (effectiveAddr rs imm s).toNat % 4 = 0)
    (hr : 0 ≤ (effectiveAddr rs imm s).toInt ∧ (effectiveAddr rs imm s).toInt ≤ 996) :
    execLw rt rs imm s =
      .next ((s.writeReg rt (s.mem.readWord (effectiveAddr rs imm s).toNat)).setReport ⟨true, true⟩) := by
  have hk := wordIndex_ok _ h hr
  simp only [execLw, memRead_eq, hk, Except.map, (wordIndex_bounds _ _ hk).2, complete_eq]

/-- SW on an aligned address in range. -/
theorem execSw_ok (rt rs : RegIdx) (imm : Imm16) (s : State) (h : (effectiveAddr rs imm s).toNat % 4 = 0)
    (hr : 0 ≤ (effectiveAddr rs imm s).toInt ∧ (effectiveAddr rs imm s).toInt ≤ 996) :
    execSw rt rs imm s =
      .next (State.setReport { s with mem := s.mem.writeWord (effectiveAddr rs imm s).toNat (s.readReg rt) }
        ⟨true, false⟩) := by
  have hk := wordIndex_ok _ h hr
  simp only [execSw, memWrite_eq, hk, Except.map, (wordIndex_bounds _ _ hk).2, complete_eq]

/-- LW and SW on any other address raise the address's fault. -/
theorem execLw_error (rt rs : RegIdx) (imm : Imm16) (s : State) (f : Fault)
    (h : wordIndex (effectiveAddr rs imm s) = .error f) : execLw rt rs imm s = .fault f := by
  simp only [execLw, memRead_eq, h, Except.map]

theorem execSw_error (rt rs : RegIdx) (imm : Imm16) (s : State) (f : Fault)
    (h : wordIndex (effectiveAddr rs imm s) = .error f) : execSw rt rs imm s = .fault f := by
  simp only [execSw, memWrite_eq, h, Except.map]

/-- A completed LW had an aligned address in range, and did only its own effect. -/
theorem execLw_next (rt rs : RegIdx) (imm : Imm16) (s t : State) (h : execLw rt rs imm s = .next t) :
    ((effectiveAddr rs imm s).toNat % 4 = 0 ∧
      0 ≤ (effectiveAddr rs imm s).toInt ∧ (effectiveAddr rs imm s).toInt ≤ 996) ∧
    t = (s.writeReg rt (s.mem.readWord (effectiveAddr rs imm s).toNat)).setReport ⟨true, true⟩ := by
  rcases wordIndex_cases (effectiveAddr rs imm s) with ⟨_, he⟩ | ⟨_, _, he⟩ | ⟨h4, hr, _⟩
  · simp [execLw_error _ _ _ _ _ he] at h
  · simp [execLw_error _ _ _ _ _ he] at h
  · exact ⟨⟨h4, hr⟩, (Host.Outcome.next.inj ((execLw_ok _ _ _ _ h4 hr).symm.trans h)).symm⟩

/-- A completed SW had an aligned address in range, and did only its own effect. -/
theorem execSw_next (rt rs : RegIdx) (imm : Imm16) (s t : State) (h : execSw rt rs imm s = .next t) :
    ((effectiveAddr rs imm s).toNat % 4 = 0 ∧
      0 ≤ (effectiveAddr rs imm s).toInt ∧ (effectiveAddr rs imm s).toInt ≤ 996) ∧
    t = State.setReport { s with mem := s.mem.writeWord (effectiveAddr rs imm s).toNat (s.readReg rt) }
      ⟨true, false⟩ := by
  rcases wordIndex_cases (effectiveAddr rs imm s) with ⟨_, he⟩ | ⟨_, _, he⟩ | ⟨h4, hr, _⟩
  · simp [execSw_error _ _ _ _ _ he] at h
  · simp [execSw_error _ _ _ _ _ he] at h
  · exact ⟨⟨h4, hr⟩, (Host.Outcome.next.inj ((execSw_ok _ _ _ _ h4 hr).symm.trans h)).symm⟩

/-- Every instruction completes or raises a fault; nothing else is possible. -/
theorem exec_cases (i : Instr) (s : State) :
    (∃ t, exec i s = .next t ∧ Completed s t) ∨ ∃ k n, exec i s = .fault (.raised k n) := by
  cases i with
  | add | sub | subu | addu | and | or | xor | nor | slt | sltu | addi | addiu | andi | ori | xori | slti | sltiu
  | lui => exact .inl (completed_writeResult _ _ _)
  | sll rd rt sa => exact shiftBy_cases (fixedSource Config.shamtSource 0x00#6 sa s) shiftLeft rd rt s
  | sra rd rt sa => exact shiftBy_cases (fixedSource Config.shamtSource 0x03#6 sa s) shiftRight rd rt s
  | srl rd rt sa => exact shiftBy_cases (fixedSource Config.shamtSource 0x02#6 sa s) shiftRight rd rt s
  | sllv rd rt rs => exact shiftBy_cases (s.readReg rs).toInt shiftLeft rd rt s
  | srav rd rt rs => exact shiftBy_cases (s.readReg rs).toInt shiftRight rd rt s
  | srlv rd rt rs => exact shiftBy_cases (s.readReg rs).toInt shiftRight rd rt s
  | jr | j => exact .inl (completed_setPc _ _ _ _)
  | jalr | jal => exact .inl (completed_link _ _ _ _)
  | lw rt rs imm => exact execLw_cases rt rs imm s
  | sw rt rs imm => exact execSw_cases rt rs imm s
  | beq | bne | bgtz | blez | bgez | bltz => exact .inl (completed_branchIf _ _ _)
  | bgezal | bltzal => exact .inl (completed_linkBranchIf _ _ _)

/-- A fetched word, recognised or not, completes or raises a fault. -/
theorem runWord_cases (w : Word) (s : State) :
    (∃ t, runWord w s = .next t ∧ Completed s t) ∨ ∃ k n, runWord w s = .fault (.raised k n) := by
  unfold runWord
  cases decode w with
  | instr i => exact exec_cases i s
  | unknown _ => exact .inl ⟨_, rfl, rfl, rfl, rfl, rfl, rfl, rfl, .inl rfl, .inl rfl⟩

/-- The step's equation in RUNNING (rule R236), one lemma per case. -/
theorem step_running (s : State) (h : s.run = .running) :
    step s = if (s.codeLen : Int) ≤ s.pc.toInt then .next s.enterHalted
      else if s.pc.toInt < 0 then .next (s.takeFault .pcOutOfBounds s.pc.toInt)
      else settle s (runWord s.fetch s.advance) := by
  simp only [step, runLoop, h]

theorem step_past_end (s : State) (h : s.run = .running) (hp : (s.codeLen : Int) ≤ s.pc.toInt) :
    step s = .next s.enterHalted := by
  rw [step_running s h, if_pos hp]

theorem step_negative_pc (s : State) (h : s.run = .running) (hp : s.pc.toInt < 0) :
    step s = .next (s.takeFault .pcOutOfBounds s.pc.toInt) := by
  have := Int.natCast_nonneg s.codeLen
  rw [step_running s h, if_neg (by omega), if_pos hp]

theorem step_in_code (s : State) (h : s.run = .running) (h0 : 0 ≤ s.pc.toInt) (h1 : s.pc.toInt < s.codeLen) :
    step s = settle s (runWord s.fetch s.advance) := by
  rw [step_running s h, if_neg (by omega), if_neg (by omega)]

/-- Everything one iteration can answer from a running state. -/
theorem step_cases (s t : State) (h : step s = .next t) :
    s.run = .running ∧
    (((s.codeLen : Int) ≤ s.pc.toInt ∧ t = s.enterHalted) ∨
     (s.pc.toInt < 0 ∧ t = s.takeFault .pcOutOfBounds s.pc.toInt) ∨
     (0 ≤ s.pc.toInt ∧ s.pc.toInt < s.codeLen ∧
       ((∃ u, runWord s.fetch s.advance = .next u ∧ Completed s.advance u ∧ t = u.traceReport) ∨
        (∃ k n, runWord s.fetch s.advance = .fault (.raised k n) ∧ t = s.takeFault k n)))) := by
  unfold step runLoop at h
  cases hr : s.run with
  | halted => simp [hr] at h
  | faulted => simp [hr] at h
  | running =>
    refine ⟨rfl, ?_⟩
    simp only [hr] at h
    by_cases h1 : (s.codeLen : Int) ≤ s.pc.toInt
    · rw [if_pos h1] at h
      exact .inl ⟨h1, by simpa using h.symm⟩
    · rw [if_neg h1] at h
      by_cases h2 : s.pc.toInt < 0
      · rw [if_pos h2] at h
        exact .inr (.inl ⟨h2, by simpa using h.symm⟩)
      · rw [if_neg h2] at h
        refine .inr (.inr ⟨by omega, by omega, ?_⟩)
        rcases runWord_cases s.fetch s.advance with ⟨u, hu, hc⟩ | ⟨k, n, hf⟩
        · rw [hu] at h
          exact .inl ⟨u, hu, hc, by simpa [settle] using h.symm⟩
        · rw [hf] at h
          exact .inr ⟨k, n, hf, by simpa [settle] using h.symm⟩

end Sys2Proof.Machine
end

