-- ==== Sys2Proof/Laws/PerInstr.lean ====
section
/-! SUPPORT. Laws stated per instruction. `EncodedFormat`: the encoder gives every instruction a word of its own format,
by rule R76's classification of the opcode. -/

namespace Sys2Proof

/-- Rule R76 agrees with the encoder on the instruction's format. -/
def Laws.EncodedFormat.Statement (i : Instr) : Prop := classify (opcodeOf (encode i)) = formatOf i

/-- An R-format word has format R. -/
theorem classify_encR (f : Field6) (rd rs rt : RegIdx) (sh : BitVec 5) :
    classify (opcodeOf (encR f rd rs rt sh)) = .R := by
  rw [opcodeOf_encR]; rfl

/-- An I-format word has its opcode's class. -/
theorem classify_encI (o : Field6) (rt rs : RegIdx) (imm : Imm16) :
    classify (opcodeOf (encI o rt rs imm)) = classify o := by
  rw [opcodeOf_encI]

/-- A J-format word has its opcode's class. -/
theorem classify_encJ (o : Field6) (t : Target26) : classify (opcodeOf (encJ o t)) = classify o := by
  rw [opcodeOf_encJ]

theorem Laws.EncodedFormat.add (rd rs rt : RegIdx) : Laws.EncodedFormat.Statement (.add rd rs rt) :=
  classify_encR _ _ _ _ _

theorem Laws.EncodedFormat.sub (rd rs rt : RegIdx) : Laws.EncodedFormat.Statement (.sub rd rs rt) :=
  classify_encR _ _ _ _ _

theorem Laws.EncodedFormat.subu (rd rs rt : RegIdx) : Laws.EncodedFormat.Statement (.subu rd rs rt) :=
  classify_encR _ _ _ _ _

theorem Laws.EncodedFormat.addu (rd rs rt : RegIdx) : Laws.EncodedFormat.Statement (.addu rd rs rt) :=
  classify_encR _ _ _ _ _

theorem Laws.EncodedFormat.and (rd rs rt : RegIdx) : Laws.EncodedFormat.Statement (.and rd rs rt) :=
  classify_encR _ _ _ _ _

theorem Laws.EncodedFormat.or (rd rs rt : RegIdx) : Laws.EncodedFormat.Statement (.or rd rs rt) :=
  classify_encR _ _ _ _ _

theorem Laws.EncodedFormat.xor (rd rs rt : RegIdx) : Laws.EncodedFormat.Statement (.xor rd rs rt) :=
  classify_encR _ _ _ _ _

theorem Laws.EncodedFormat.nor (rd rs rt : RegIdx) : Laws.EncodedFormat.Statement (.nor rd rs rt) :=
  classify_encR _ _ _ _ _

theorem Laws.EncodedFormat.slt (rd rs rt : RegIdx) : Laws.EncodedFormat.Statement (.slt rd rs rt) :=
  classify_encR _ _ _ _ _

theorem Laws.EncodedFormat.sltu (rd rs rt : RegIdx) : Laws.EncodedFormat.Statement (.sltu rd rs rt) :=
  classify_encR _ _ _ _ _

theorem Laws.EncodedFormat.sll (rd rt : RegIdx) (sa : BitVec 5) : Laws.EncodedFormat.Statement (.sll rd rt sa) :=
  classify_encR _ _ _ _ _

theorem Laws.EncodedFormat.sllv (rd rt rs : RegIdx) : Laws.EncodedFormat.Statement (.sllv rd rt rs) :=
  classify_encR _ _ _ _ _

theorem Laws.EncodedFormat.sra (rd rt : RegIdx) (sa : BitVec 5) : Laws.EncodedFormat.Statement (.sra rd rt sa) :=
  classify_encR _ _ _ _ _

theorem Laws.EncodedFormat.srl (rd rt : RegIdx) (sa : BitVec 5) : Laws.EncodedFormat.Statement (.srl rd rt sa) :=
  classify_encR _ _ _ _ _

theorem Laws.EncodedFormat.srav (rd rt rs : RegIdx) : Laws.EncodedFormat.Statement (.srav rd rt rs) :=
  classify_encR _ _ _ _ _

theorem Laws.EncodedFormat.srlv (rd rt rs : RegIdx) : Laws.EncodedFormat.Statement (.srlv rd rt rs) :=
  classify_encR _ _ _ _ _

theorem Laws.EncodedFormat.jr (rs : RegIdx) : Laws.EncodedFormat.Statement (.jr rs) :=
  classify_encR _ _ _ _ _

theorem Laws.EncodedFormat.jalr (rs : RegIdx) : Laws.EncodedFormat.Statement (.jalr rs) :=
  classify_encR _ _ _ _ _

theorem Laws.EncodedFormat.addi (rt rs : RegIdx) (imm : Imm16) : Laws.EncodedFormat.Statement (.addi rt rs imm) :=
  (classify_encI _ _ _ _).trans rfl

theorem Laws.EncodedFormat.addiu (rt rs : RegIdx) (imm : Imm16) : Laws.EncodedFormat.Statement (.addiu rt rs imm) :=
  (classify_encI _ _ _ _).trans rfl

theorem Laws.EncodedFormat.andi (rt rs : RegIdx) (imm : Imm16) : Laws.EncodedFormat.Statement (.andi rt rs imm) :=
  (classify_encI _ _ _ _).trans rfl

theorem Laws.EncodedFormat.ori (rt rs : RegIdx) (imm : Imm16) : Laws.EncodedFormat.Statement (.ori rt rs imm) :=
  (classify_encI _ _ _ _).trans rfl

theorem Laws.EncodedFormat.xori (rt rs : RegIdx) (imm : Imm16) : Laws.EncodedFormat.Statement (.xori rt rs imm) :=
  (classify_encI _ _ _ _).trans rfl

theorem Laws.EncodedFormat.slti (rt rs : RegIdx) (imm : Imm16) : Laws.EncodedFormat.Statement (.slti rt rs imm) :=
  (classify_encI _ _ _ _).trans rfl

theorem Laws.EncodedFormat.sltiu (rt rs : RegIdx) (imm : Imm16) : Laws.EncodedFormat.Statement (.sltiu rt rs imm) :=
  (classify_encI _ _ _ _).trans rfl

theorem Laws.EncodedFormat.lui (rt : RegIdx) (imm : Imm16) : Laws.EncodedFormat.Statement (.lui rt imm) :=
  (classify_encI _ _ _ _).trans rfl

theorem Laws.EncodedFormat.lw (rt rs : RegIdx) (imm : Imm16) : Laws.EncodedFormat.Statement (.lw rt rs imm) :=
  (classify_encI _ _ _ _).trans rfl

theorem Laws.EncodedFormat.sw (rt rs : RegIdx) (imm : Imm16) : Laws.EncodedFormat.Statement (.sw rt rs imm) :=
  (classify_encI _ _ _ _).trans rfl

theorem Laws.EncodedFormat.beq (rs rt : RegIdx) (off : Imm16) : Laws.EncodedFormat.Statement (.beq rs rt off) :=
  (classify_encI _ _ _ _).trans rfl

theorem Laws.EncodedFormat.bne (rs rt : RegIdx) (off : Imm16) : Laws.EncodedFormat.Statement (.bne rs rt off) :=
  (classify_encI _ _ _ _).trans rfl

theorem Laws.EncodedFormat.bgtz (rs : RegIdx) (off : Imm16) : Laws.EncodedFormat.Statement (.bgtz rs off) :=
  (classify_encI _ _ _ _).trans rfl

theorem Laws.EncodedFormat.blez (rs : RegIdx) (off : Imm16) : Laws.EncodedFormat.Statement (.blez rs off) :=
  (classify_encI _ _ _ _).trans rfl

theorem Laws.EncodedFormat.bgez (rs : RegIdx) (off : Imm16) : Laws.EncodedFormat.Statement (.bgez rs off) :=
  (classify_encI _ _ _ _).trans rfl

theorem Laws.EncodedFormat.bgezal (rs : RegIdx) (off : Imm16) : Laws.EncodedFormat.Statement (.bgezal rs off) :=
  (classify_encI _ _ _ _).trans rfl

theorem Laws.EncodedFormat.bltz (rs : RegIdx) (off : Imm16) : Laws.EncodedFormat.Statement (.bltz rs off) :=
  (classify_encI _ _ _ _).trans rfl

theorem Laws.EncodedFormat.bltzal (rs : RegIdx) (off : Imm16) : Laws.EncodedFormat.Statement (.bltzal rs off) :=
  (classify_encI _ _ _ _).trans rfl

theorem Laws.EncodedFormat.j (target : Target26) : Laws.EncodedFormat.Statement (.j target) :=
  (classify_encJ _ _).trans rfl

theorem Laws.EncodedFormat.jal (target : Target26) : Laws.EncodedFormat.Statement (.jal target) :=
  (classify_encJ _ _).trans rfl

end Sys2Proof
end

