-- ==== Sys2Proof/Tests/Slice0.lean ====
section
/-! SUPPORT. The model's own tests: the checks of WellFormed.lean on ill-formed loads, one word per constructor written out
from the encoding tables of rule R80, one or two single steps per instruction with the expected values of
spec/95_test_vectors.md (the vector's number stands in each comment), and for every obligation that has hypotheses a
concrete case that meets them. -/

namespace Sys2Proof.Tests

open Sys2Proof.Machine

/-! ## Ill-formed loads are refused (rule R291) -/

theorem test_load_refuses_register_32 : (LoadImage.mk [(32, 1#32)] [] []).regsOk = false := by decide
theorem test_load_refuses_address_2 : (LoadImage.mk [] [(2, 1#32)] []).memOk = false := by decide
theorem test_load_refuses_address_1000 : (LoadImage.mk [] [(1000, 1#32)] []).memOk = false := by decide
theorem test_load_refuses_1025_words : (LoadImage.mk [] [] (List.replicate 1025 0#32)).codeOk = false := by
  rw [LoadImage.codeOk, List.length_replicate]
  decide
theorem test_load_refuses_ill_formed : load ⟨[(32, 1#32)], [], []⟩ = none ∧ load ⟨[], [(998, 1#32)], []⟩ = none := by
  decide
theorem test_load_admits_the_bounds :
    (LoadImage.mk [(0, 9#32), (31, 1#32)] [(0, 1#32), (996, 1#32)] [0#32]).wf = true := by decide

/-! ## Decoding: the words of rule R80's tables, fields written out in the layouts of rules R72, R73 and R74 -/

theorem test_decode_r_arithmetic :
    decode 0b00000000001000100001100000100000#32 = .instr (.add 3#5 1#5 2#5) ∧
    decode 0b00000000001000100001100000100010#32 = .instr (.sub 3#5 1#5 2#5) ∧
    decode 0b00000000001000100001100000100011#32 = .instr (.subu 3#5 1#5 2#5) ∧
    decode 0b00000000001000100001100000100001#32 = .instr (.addu 3#5 1#5 2#5) := by decide

theorem test_decode_r_logic_and_compare :
    decode 0b00000000001000100001100000100100#32 = .instr (.and 3#5 1#5 2#5) ∧
    decode 0b00000000001000100001100000100101#32 = .instr (.or 3#5 1#5 2#5) ∧
    decode 0b00000000001000100001100000100110#32 = .instr (.xor 3#5 1#5 2#5) ∧
    decode 0b00000000001000100001100000100111#32 = .instr (.nor 3#5 1#5 2#5) ∧
    decode 0b00000000001000100001100000101010#32 = .instr (.slt 3#5 1#5 2#5) ∧
    decode 0b00000000001000100001100000101011#32 = .instr (.sltu 3#5 1#5 2#5) := by decide

theorem test_decode_r_shifts :
    decode 0b00000000000001100010100100000000#32 = .instr (.sll 5#5 6#5 4#5) ∧
    decode 0b00000000001000100001100000000100#32 = .instr (.sllv 3#5 2#5 1#5) ∧
    decode 0b00000000000000100010100000000011#32 = .instr (.sra 5#5 2#5 0#5) ∧
    decode 0b00000000000001100010100000000010#32 = .instr (.srl 5#5 6#5 0#5) ∧
    decode 0b00000000001000100001100000000111#32 = .instr (.srav 3#5 2#5 1#5) ∧
    decode 0b00000000001000100001100000000110#32 = .instr (.srlv 3#5 2#5 1#5) := by decide

theorem test_decode_r_jumps :
    decode 0b00000011111000000000000000001000#32 = .instr (.jr 31#5) ∧
    decode 0b00000000001010010011100000001000#32 = .instr (.jr 1#5) ∧
    decode 0b00000000100000000000000000001001#32 = .instr (.jalr 4#5) ∧
    decode 0b00000000100000000010100000001001#32 = .instr (.jalr 4#5) := by decide

theorem test_decode_i_alu :
    decode 0b00100000000000010000000000000101#32 = .instr (.addi 1#5 0#5 5#16) ∧
    decode 0b00100100001000100111111111111111#32 = .instr (.addiu 2#5 1#5 0x7FFF#16) ∧
    decode 0b00110000001000101000000000000000#32 = .instr (.andi 2#5 1#5 0x8000#16) ∧
    decode 0b00110100000000101000000000000000#32 = .instr (.ori 2#5 0#5 0x8000#16) ∧
    decode 0b00111000001000101111111111111111#32 = .instr (.xori 2#5 1#5 0xFFFF#16) ∧
    decode 0b00101000001000101111111111111111#32 = .instr (.slti 2#5 1#5 0xFFFF#16) ∧
    decode 0b00101100001000101111111111111111#32 = .instr (.sltiu 2#5 1#5 0xFFFF#16) ∧
    decode 0b00111100000000010001001000110100#32 = .instr (.lui 1#5 0x1234#16) := by decide

theorem test_decode_load_store :
    decode 0b10001100001000110000000000000100#32 = .instr (.lw 3#5 1#5 4#16) ∧
    decode 0b10101100000000010000000000000000#32 = .instr (.sw 1#5 0#5 0#16) := by decide

theorem test_decode_branches :
    decode 0b00010000001000100000000000000010#32 = .instr (.beq 1#5 2#5 2#16) ∧
    decode 0b00010100001000001111111111111101#32 = .instr (.bne 1#5 0#5 0xFFFD#16) ∧
    decode 0b00011100001000000000000000000101#32 = .instr (.bgtz 1#5 5#16) ∧
    decode 0b00011000001000001111111111111111#32 = .instr (.blez 1#5 0xFFFF#16) ∧
    decode 0b00000100001000010000000000000011#32 = .instr (.bgez 1#5 3#16) ∧
    decode 0b00000100001100010000000000000011#32 = .instr (.bgezal 1#5 3#16) ∧
    decode 0b00000100001000000000000000000011#32 = .instr (.bltz 1#5 3#16) ∧
    decode 0b00000100001100000000000000000011#32 = .instr (.bltzal 1#5 3#16) := by decide

theorem test_decode_jumps :
    decode 0b00001000000000000000000000000010#32 = .instr (.j 2#26) ∧
    decode 0b00001011111111111111111111111111#32 = .instr (.j 0x3FFFFFF#26) ∧
    decode 0b00001100000000000000000000000010#32 = .instr (.jal 2#26) ∧
    decode 0b00001110000000000000000000000000#32 = .instr (.jal 0x2000000#26) := by decide

theorem test_decode_ignores_unnamed_fields :
    decode 0b00000000001000100001100101100000#32 = .instr (.add 3#5 1#5 2#5) ∧
    decode 0b00000001001001100010100000000000#32 = .instr (.sll 5#5 6#5 0#5) ∧
    decode 0b00111100111000010000000000000001#32 = .instr (.lui 1#5 1#16) ∧
    decode 0b00011100001010010000000000000101#32 = .instr (.bgtz 1#5 5#16) := by decide

theorem test_decode_unrecognised :
    decode 0b00000000001000100001100000000001#32 = .unknown (.funct 1#6) ∧
    decode 0b00000000000000000000000000001100#32 = .unknown (.funct 12#6) ∧
    decode 0b00000000001000100000000000011000#32 = .unknown (.funct 24#6) ∧
    decode 0b00000000001000100001100000111111#32 = .unknown (.funct 63#6) ∧
    decode 0b00000100001000100000000000000011#32 = .unknown (.subcode 2#5) ∧
    decode 0b00000100000111110000000000000011#32 = .unknown (.subcode 31#5) ∧
    decode 0b01000000000000000000000000000000#32 = .unknown (.opcode 16#6) ∧
    decode 0b10000000001000110000000000000100#32 = .unknown (.opcode 32#6) ∧
    decode 0xFFFFFFFF#32 = .unknown (.opcode 63#6) := by decide

/-- The examples of rule R88. -/
theorem test_encode_examples :
    encode (.add 3#5 1#5 2#5) = 0x00221820#32 ∧ encode (.sw 1#5 0#5 0#16) = 0xAC010000#32 := by decide

/-- The opcode-table numbering: the word itself; an unrecognised word selects no row. -/
theorem test_decodeTableWord :
    decodeTableWord 32 0x00221820 = some (.add 3#5 1#5 2#5) ∧ decodeTableWord 32 0x40000000 = none := by decide

/-! ## One step -/

/-- A running state at index `idx`, where the word is `w`, with these registers and memory words. -/
def placed (idx : Nat) (w : Word) (regs mem : List (Nat × Word)) : State :=
  { initialState ⟨regs, mem, List.replicate idx 0#32 ++ [w]⟩ with pc := BitVec.ofNat 32 idx }

/-- What a test looks at after a step: the signed values of one register and of the pc, and how many trace entries were
emitted. -/
def seen (d : RegIdx) (r : Result) : Option (Int × Int × Nat) :=
  match r with
  | .next t => some ((t.readReg d).toInt, t.pc.toInt, t.trace.length)
  | _ => none

/-- The signed value of one memory word after a step, with the pc and the number of trace entries. -/
def stored (a : Nat) (r : Result) : Option (Int × Int × Nat) :=
  match r with
  | .next t => some ((t.mem.readWord a).toInt, t.pc.toInt, t.trace.length)
  | _ => none

/-- The fault record after a step, with the pc and the number of trace entries. -/
def faulted (r : Result) : Option (Option FaultRecord × Int × Nat) :=
  match r with
  | .next t => some (t.fault, t.pc.toInt, t.trace.length)
  | _ => none

/-- V102. -/
theorem test_add_wraps :
    seen 3#5 (step (placed 0 0x00221820#32 [(1, 0x7FFFFFFF#32), (2, 1#32)] [])) = some (-2147483648, 1, 4) := by decide

/-- V106. -/
theorem test_add_into_register_0 :
    seen 0#5 (step (placed 0 0x00220020#32 [(1, 5#32), (2, 3#32)] [])) = some (0, 1, 4) := by decide

/-- V109. -/
theorem test_sub_wraps :
    seen 3#5 (step (placed 0 0x00021822#32 [(2, 0x80000000#32)] [])) = some (-2147483648, 1, 4) := by decide

/-- V111. -/
theorem test_subu :
    seen 3#5 (step (placed 0 0x00221823#32 [(2, 1#32)] [])) = some (-1, 1, 4) := by decide

/-- V113. -/
theorem test_addu :
    seen 3#5 (step (placed 0 0x00221821#32 [(1, 0x7FFFFFFF#32), (2, 0x7FFFFFFF#32)] [])) = some (-2, 1, 4) := by decide

/-- V115. -/
theorem test_and_is_boolean :
    seen 3#5 (step (placed 0 0x00221824#32 [(1, 0x80000000#32), (2, 0x7FFFFFFF#32)] [])) = some (1, 1, 4) := by decide

/-- V118. -/
theorem test_or :
    seen 3#5 (step (placed 0 0x00221825#32 [(1, 240#32), (2, 15#32)] [])) = some (255, 1, 4) := by decide

/-- V120. -/
theorem test_xor :
    seen 3#5 (step (placed 0 0x00221826#32 [(1, 255#32), (2, 15#32)] [])) = some (240, 1, 4) := by decide

/-- V123. -/
theorem test_nor :
    seen 3#5 (step (placed 0 0x00201827#32 [(1, 0xF0F0F0F#32)] [])) = some (-252645136, 1, 4) := by decide

/-- V124. -/
theorem test_slt :
    seen 3#5 (step (placed 0 0x0022182A#32 [(1, 0xFFFFFFFF#32), (2, 1#32)] [])) = some (1, 1, 4) := by decide

/-- V125. -/
theorem test_sltu :
    seen 3#5 (step (placed 0 0x0022182B#32 [(1, 0xFFFFFFFF#32), (2, 1#32)] [])) = some (0, 1, 4) := by decide

/-- V131. -/
theorem test_sll_ignores_sa :
    seen 5#5 (step (placed 0 0x00062900#32 [(6, 0x80000001#32)] [])) = some (-2147483647, 1, 4) := by decide

/-- V134. -/
theorem test_sllv :
    seen 3#5 (step (placed 0 0x00221804#32 [(1, 31#32), (2, 3#32)] [])) = some (-2147483648, 1, 4) := by decide

/-- V137. -/
theorem test_sllv_faults :
    faulted (step (placed 0 0x00221804#32 [(1, 0xFFFFFFFF#32), (2, 1#32)] [])) =
      some (some ⟨.shiftOutOfRange, -1, 0#32, 1⟩, 0, 0) := by decide

/-- V140. -/
theorem test_sra_reads_old_register_3 :
    seen 3#5 (step (placed 0 0x00021803#32 [(2, 0xFFFFFF00#32), (3, 4#32)] [])) = some (-16, 1, 4) := by decide

/-- V141. -/
theorem test_sra_faults :
    faulted (step (placed 0 0x00022803#32 [(2, 100#32), (3, 32#32)] [])) =
      some (some ⟨.shiftOutOfRange, 32, 0#32, 1⟩, 0, 0) := by decide

/-- V144. -/
theorem test_srl_is_arithmetic :
    seen 5#5 (step (placed 0 0x00062802#32 [(2, 31#32), (6, 0x80000000#32)] [])) = some (-1, 1, 4) := by decide

/-- V146. -/
theorem test_srl_faults :
    faulted (step (placed 0 0x00062802#32 [(2, 0xFFFFFF00#32), (6, 64#32)] [])) =
      some (some ⟨.shiftOutOfRange, -256, 0#32, 1⟩, 0, 0) := by decide

/-- V148. -/
theorem test_srav :
    seen 3#5 (step (placed 0 0x00221807#32 [(1, 31#32), (2, 0xFFFFFFFB#32)] [])) = some (-1, 1, 4) := by decide

/-- V150. -/
theorem test_srav_faults :
    faulted (step (placed 0 0x00221807#32 [(1, 40#32), (2, 1#32)] [])) =
      some (some ⟨.shiftOutOfRange, 40, 0#32, 1⟩, 0, 0) := by decide

/-- V152. -/
theorem test_srlv_is_arithmetic :
    seen 3#5 (step (placed 0 0x00221806#32 [(1, 1#32), (2, 0x80000000#32)] [])) = some (-1073741824, 1, 4) := by decide

/-- V153. -/
theorem test_srlv_faults :
    faulted (step (placed 0 0x00221806#32 [(1, 0x80000000#32), (2, 1#32)] [])) =
      some (some ⟨.shiftOutOfRange, -2147483648, 0#32, 1⟩, 0, 0) := by decide

/-- V154. -/
theorem test_jr :
    seen 31#5 (step (placed 5 0x03E00008#32 [(31, 2#32)] [])) = some (2, 2, 3) := by decide

/-- V156. -/
theorem test_jr_negative :
    seen 1#5 (step (placed 2 0x00200008#32 [(1, 0xFFFFFFFD#32)] [])) = some (-3, -3, 3) := by decide

/-- V160. -/
theorem test_jalr_of_31_uses_the_old_value :
    seen 31#5 (step (placed 3 0x03E00009#32 [(31, 7#32)] [])) = some (4, 7, 3) := by decide

/-- V161. -/
theorem test_jalr_ignores_rd :
    seen 5#5 (step (placed 3 0x00802809#32 [(4, 10#32)] [])) = some (0, 10, 3) := by decide

/-- V166. -/
theorem test_addi_wraps :
    seen 2#5 (step (placed 0 0x20228000#32 [(1, 0x80000000#32)] [])) = some (2147450880, 1, 4) := by decide

/-- V169. -/
theorem test_addiu_sign_extends :
    seen 2#5 (step (placed 0 0x2422FFFF#32 [(1, 1#32)] [])) = some (0, 1, 4) := by decide

/-- V171. -/
theorem test_andi_is_boolean :
    seen 2#5 (step (placed 0 0x30220006#32 [(1, 9#32)] [])) = some (1, 1, 4) := by decide

/-- V174. -/
theorem test_ori_sign_extends :
    seen 2#5 (step (placed 0 0x34028000#32 [] [])) = some (-32768, 1, 4) := by decide

/-- V176. -/
theorem test_xori_sign_extends :
    seen 2#5 (step (placed 0 0x3822FFFF#32 [(1, 0xF0F0F0F#32)] [])) = some (-252645136, 1, 4) := by decide

/-- V178. -/
theorem test_slti :
    seen 2#5 (step (placed 0 0x2822FFFF#32 [(1, 0xFFFFFFFE#32)] [])) = some (1, 1, 4) := by decide

/-- V181. -/
theorem test_sltiu_sign_extends :
    seen 2#5 (step (placed 0 0x2C22FFFF#32 [(1, 5#32)] [])) = some (1, 1, 4) := by decide

/-- V187. -/
theorem test_lui_ignores_rs :
    seen 1#5 (step (placed 0 0x3CE10001#32 [(1, 0xFFFF#32), (7, 999#32)] [])) = some (65536, 1, 4) := by decide

/-- V188. -/
theorem test_lui_reads_no_memory :
    seen 1#5 (step (placed 0 0x3C010000#32 [(1, 5#32)] [(0, 77#32)])) = some (0, 1, 4) := by decide

/-- V191. -/
theorem test_lw_last_word :
    seen 3#5 (step (placed 0 0x8C0303E4#32 [] [(996, 0xFFFFFFFB#32)])) = some (-5, 1, 5) := by decide

/-- V197. -/
theorem test_lw_misaligned_wins :
    faulted (step (placed 0 0x8C0303E9#32 [(3, 1#32)] [])) =
      some (some ⟨.misalignedAccess, 1001, 0#32, 1⟩, 0, 0) := by decide

/-- V200. -/
theorem test_sw_last_word :
    stored 996 (step (placed 0 0xAC220004#32 [(1, 992#32), (2, 0xFFFFFFFF#32)] [])) = some (-1, 1, 4) := by decide

/-- V203. -/
theorem test_sw_out_of_bounds :
    faulted (step (placed 0 0xAC220000#32 [(1, 0xFFFFFFFC#32), (2, 42#32)] [])) =
      some (some ⟨.outOfBounds, -4, 0#32, 1⟩, 0, 0) := by decide

/-- V206. -/
theorem test_beq_taken :
    seen 1#5 (step (placed 0 0x10220002#32 [(1, 9#32), (2, 9#32)] [])) = some (9, 3, 3) := by decide

/-- V207. -/
theorem test_beq_not_taken :
    seen 1#5 (step (placed 0 0x10220002#32 [(1, 9#32), (2, 8#32)] [])) = some (9, 1, 3) := by decide

/-- V211. -/
theorem test_bne_taken :
    seen 1#5 (step (placed 4 0x1420FFFD#32 [(1, 3#32)] [])) = some (3, 2, 3) := by decide

/-- V213. -/
theorem test_bne_not_taken :
    seen 1#5 (step (placed 0 0x14210005#32 [(1, 3#32)] [])) = some (3, 1, 3) := by decide

/-- V214. -/
theorem test_bgtz_taken :
    seen 1#5 (step (placed 2 0x1C200005#32 [(1, 1#32)] [])) = some (1, 8, 3) := by decide

/-- V215. -/
theorem test_bgtz_of_0 :
    seen 1#5 (step (placed 2 0x1C200005#32 [(1, 0#32)] [])) = some (0, 3, 3) := by decide

/-- V217. -/
theorem test_blez_of_0 :
    seen 1#5 (step (placed 6 0x1820FFFF#32 [(1, 0#32)] [])) = some (0, 6, 3) := by decide

/-- V219. -/
theorem test_blez_not_taken :
    seen 1#5 (step (placed 6 0x18200003#32 [(1, 1#32)] [])) = some (1, 7, 3) := by decide

/-- V220. -/
theorem test_bgez_of_0 :
    seen 1#5 (step (placed 0 0x04210003#32 [(1, 0#32)] [])) = some (0, 4, 3) := by decide

/-- V221. -/
theorem test_bgez_not_taken :
    seen 1#5 (step (placed 0 0x04210003#32 [(1, 0x80000000#32)] [])) = some (-2147483648, 1, 3) := by decide

/-- V223. -/
theorem test_bgezal_links_not_taken :
    seen 31#5 (step (placed 2 0x04310003#32 [(1, 0xFFFFFFFB#32)] [])) = some (3, 3, 3) := by decide

/-- V224. -/
theorem test_bgezal_tests_the_old_31 :
    seen 31#5 (step (placed 2 0x07F10003#32 [(31, 0xFFFFFFFF#32)] [])) = some (3, 3, 3) := by decide

/-- V225. -/
theorem test_bltz_taken :
    seen 1#5 (step (placed 0 0x04200003#32 [(1, 0xFFFFFFFF#32)] [])) = some (-1, 4, 3) := by decide

/-- V226. -/
theorem test_bltz_of_0 :
    seen 1#5 (step (placed 0 0x04200003#32 [(1, 0#32)] [])) = some (0, 1, 3) := by decide

/-- V227. -/
theorem test_bltzal_taken :
    seen 31#5 (step (placed 2 0x04300003#32 [(1, 0xFFFFFFF9#32)] [])) = some (3, 6, 3) := by decide

/-- V228. -/
theorem test_bltzal_links_not_taken :
    seen 31#5 (step (placed 2 0x04300003#32 [(1, 0#32)] [])) = some (3, 3, 3) := by decide

/-- V229. -/
theorem test_j_forward :
    seen 31#5 (step (placed 3 0x08000002#32 [] [])) = some (0, 6, 3) := by decide

/-- V232. -/
theorem test_j_backward :
    seen 31#5 (step (placed 3 0x0BFFFFFC#32 [] [])) = some (0, 0, 3) := by decide

/-- V235. -/
theorem test_jal_backward :
    seen 31#5 (step (placed 5 0x0FFFFFFE#32 [(31, 77#32)] [])) = some (6, 4, 3) := by decide

/-- V238. -/
theorem test_unrecognised_funct :
    seen 1#5 (step (placed 0 0x00220018#32 [(1, 5#32), (2, 3#32)] [])) = some (5, 1, 3) := by decide

/-- V240. -/
theorem test_unrecognised_subcode :
    seen 31#5 (step (placed 0 0x04220003#32 [(1, 0#32)] [])) = some (0, 1, 3) := by decide

/-- The loop entry: past the code the machine halts, with a negative pc it faults, and then it has no step (rules R235,
R236; programs E1 and F5). -/
theorem test_loop_entry :
    (match step State.reset with | .next t => decide (t.run = .halted ∧ t.trace = []) | _ => false) = true ∧
    (match step { placed 0 0#32 [] [] with pc := 0xFFFFFFFD#32 } with
      | .next t => decide (t.fault = some ⟨.pcOutOfBounds, -3, 0xFFFFFFFD#32, 1⟩ ∧ t.run = .faulted) | _ => false) = true ∧
    (match step { State.reset with run := .halted } with | .fault .haltedMachine => true | _ => false) = true ∧
    (match step { State.reset with run := .faulted } with | .fault .faultedMachine => true | _ => false) = true := by
  decide

/-- The trace lines of one LW, numbered from the counters (rule R232), and the dump of nonzero values (rule R238). -/
theorem test_trace_and_dump :
    (match step (placed 0 0x8C0303E4#32 [] [(996, 0xFFFFFFFB#32)]) with
      | .next t => decide (t.trace = [⟨1, 1, .IF⟩, ⟨2, 1, .ID⟩, ⟨3, 1, .EX⟩, ⟨4, 1, .MEM⟩, ⟨5, 1, .WB⟩] ∧ t.cycle = 6 ∧
          t.instrNo = 2 ∧ t.dumpRegs = [(3, -5)] ∧ t.mem = [(996, 0xFB#8), (997, 0xFF#8), (998, 0xFF#8), (999, 0xFF#8)])
      | _ => false) = true := by
  decide

/-- The word placed for the host is the one the next step runs. -/
theorem test_withFetchWord :
    seen 1#5 (step (State.reset.withFetchWord 32 0x20010005)) = some (5, 1, 4) ∧
    seen 1#5 (step ({ State.reset with pc := 0xFFFFFFFF#32, run := .halted }.withFetchWord 32 0x20010005)) =
      some (5, 1, 4) := by decide

/-! ## Witnesses: every obligation's hypotheses are met, each clause at a boundary value -/

/-- The answer is a next state with the property. -/
def nextHas (r : Result) (p : State → Bool) : Bool :=
  match r with
  | .next t => p t
  | _ => false

theorem exists_next {r : Result} {p : State → Bool} (h : nextHas r p = true) : ∃ t, r = .next t ∧ p t = true := by
  cases r with
  | next t => exact ⟨t, rfl, h⟩
  | fault f => simp [nextHas] at h
  | refused f => simp [nextHas] at h

/-- The answer is this raised fault. -/
def raises (r : Result) (k : FaultKind) (n : Int) : Bool :=
  match r with
  | .fault f => decide (f = .raised k n)
  | _ => false

theorem eq_raised {r : Result} {k : FaultKind} {n : Int} (h : raises r k n = true) : r = .fault (.raised k n) := by
  cases r with
  | next t => simp [raises] at h
  | fault f => rw [show f = .raised k n by simpa [raises] using h]
  | refused f => simp [raises] at h

theorem witness_EncodedInstructionsDecodeBack :
    (Instr.lw 31#5 31#5 0xFFFF#16).wf = true ∧ (Instr.jal 0x2000000#26).wf = true := by decide

theorem witness_DecodedWordsReencodeOnNamedBits :
    decode 0x03FFFFE0#32 = .instr (.add 31#5 31#5 31#5) ∧ decode 0x0BFFFFFF#32 = .instr (.j 0x3FFFFFF#26) := by decide

/-- The last index of a five-word code, and all three kinds of unrecognised word. -/
theorem witness_UnrecognisedWordsAreNoOps :
    ((placed 4 0x00221801#32 [] []).run = .running ∧ (placed 4 0x00221801#32 [] []).InCode ∧
      decode (placed 4 0x00221801#32 [] []).fetch = .unknown (.funct 1#6)) ∧
    ((placed 0 0x041F0003#32 [] []).InCode ∧ decode (placed 0 0x041F0003#32 [] []).fetch = .unknown (.subcode 31#5)) ∧
    decode (placed 0 0xFC000000#32 [] []).fetch = .unknown (.opcode 63#6) := by
  unfold State.InCode
  decide

theorem witness_SetLessThanSignedAndUnsigned :
    ((placed 0 0#32 [(1, 0xFFFFFFFF#32), (2, 1#32)] []).readReg 1#5).toInt = -1 ∧
    ((placed 0 0#32 [(1, 0xFFFFFFFF#32), (2, 1#32)] []).readReg 2#5).toInt = 1 := by decide

/-- Shift amounts 0 and 31 are in range, 32 and -1 are not; the same four in the registers SRL and SRA read. -/
theorem witness_shift_amounts :
    ∀ r ∈ [1#5, 2#5, 3#5],
      let amount v := ((placed 0 0#32 [(r.toNat, v)] []).readReg r).toInt
      (0 ≤ amount 0#32 ∧ amount 0#32 ≤ 31) ∧ (0 ≤ amount 31#32 ∧ amount 31#32 ≤ 31) ∧
      ¬ (0 ≤ amount 32#32 ∧ amount 32#32 ≤ 31) ∧ ¬ (0 ≤ amount 0xFFFFFFFF#32 ∧ amount 0xFFFFFFFF#32 ≤ 31) := by
  decide

/-- LW, SW and the memory primitives: addresses 2 and 1001 are misaligned, 1000 and -4 out of range, 0 and 996 good, over
a canonical memory that lists a word. -/
theorem witness_addresses :
    let s := placed 0 0#32 [(1, 2#32), (2, 1001#32), (3, 1000#32), (4, 0xFFFFFFFC#32), (5, 996#32)] [(8, 7#32)]
    let ea r := effectiveAddr r 0#16 s
    s.mem.wf ∧ s.mem = [(8, 7#8)] ∧ (ea 1#5).toNat % 4 ≠ 0 ∧ (ea 2#5).toNat % 4 ≠ 0 ∧
    ((ea 3#5).toNat % 4 = 0 ∧ ¬ (0 ≤ (ea 3#5).toInt ∧ (ea 3#5).toInt ≤ 996)) ∧
    ((ea 4#5).toNat % 4 = 0 ∧ ¬ (0 ≤ (ea 4#5).toInt ∧ (ea 4#5).toInt ≤ 996)) ∧
    ((ea 5#5).toNat % 4 = 0 ∧ (0 ≤ (ea 5#5).toInt ∧ (ea 5#5).toInt ≤ 996)) ∧
    ((ea 0#5).toNat % 4 = 0 ∧ (0 ≤ (ea 0#5).toInt ∧ (ea 0#5).toInt ≤ 996)) := by
  decide

/-- A store and a load after it: of the same word, of another word, and into register 0. -/
theorem witness_LoadReturnsMostRecentStore :
    ∃ s t u v w : State, s.mem.wf ∧ exec (.sw 1#5 0#5 4#16) s = .next t ∧ exec (.lw 3#5 0#5 4#16) t = .next u ∧
      exec (.lw 3#5 0#5 8#16) t = .next v ∧ exec (.lw 0#5 0#5 4#16) t = .next w := by
  obtain ⟨t, ht, h⟩ := exists_next (r := exec (.sw 1#5 0#5 4#16) (placed 0 0#32 [(1, 42#32)] [(8, 7#32)]))
    (p := fun t => nextHas (exec (.lw 3#5 0#5 4#16) t) (fun _ => true) &&
      nextHas (exec (.lw 3#5 0#5 8#16) t) (fun _ => true) && nextHas (exec (.lw 0#5 0#5 4#16) t) (fun _ => true))
    (by decide)
  simp only [Bool.and_eq_true] at h
  obtain ⟨u, hu, _⟩ := exists_next h.1.1
  obtain ⟨v, hv, _⟩ := exists_next h.1.2
  obtain ⟨w, hw, _⟩ := exists_next h.2
  exact ⟨_, t, u, v, w, by decide, ht, hu, hv, hw⟩

/-- A jump that leaves the pc past the code, at exactly `L`, and one that leaves it at -1 (the premises of
`CheckedNext`). -/
theorem witness_CheckedNext :
    (∃ t, exec (.j 0#26) (placed 0 0x08000000#32 [] []).advance = .next t ∧
      (t.run = .running ∧ (t.codeLen : Int) ≤ t.pc.toInt ∧ t.pc = 1#32)) ∧
    (∃ t, exec (.jal 0x3FFFFFE#26) (placed 0 0x0FFFFFFE#32 [] []).advance = .next t ∧
      (t.run = .running ∧ t.pc.toInt < 0 ∧ t.pc.toInt = -1)) := by
  constructor
  · obtain ⟨t, h1, h2⟩ := exists_next (r := exec (.j 0#26) (placed 0 0x08000000#32 [] []).advance)
      (p := fun t => decide (t.run = .running ∧ (t.codeLen : Int) ≤ t.pc.toInt ∧ t.pc = 1#32)) (by decide)
    exact ⟨t, h1, of_decide_eq_true h2⟩
  · obtain ⟨t, h1, h2⟩ := exists_next (r := exec (.jal 0x3FFFFFE#26) (placed 0 0x0FFFFFFE#32 [] []).advance)
      (p := fun t => decide (t.run = .running ∧ t.pc.toInt < 0 ∧ t.pc.toInt = -1)) (by decide)
    exact ⟨t, h1, of_decide_eq_true h2⟩

/-- The three clauses of one step: the pc at exactly `L`, at -1, at 0 and at `L - 1`; an instruction that completes, one
that raises, an unrecognised word. -/
theorem witness_StepRunsDecodedInstruction :
    (State.reset.run = .running ∧ (State.reset.codeLen : Int) ≤ State.reset.pc.toInt) ∧
    ({ State.reset with pc := 0xFFFFFFFF#32 }.pc.toInt < 0) ∧
    ((placed 0 0x00221820#32 [] []).InCode ∧ (placed 4 0x00221820#32 [] []).InCode) ∧
    (∃ t, decode (placed 4 0x00221820#32 [] []).fetch = .instr (.add 3#5 1#5 2#5) ∧
      exec (.add 3#5 1#5 2#5) ((placed 4 0x00221820#32 [] []).setPc 5#32) = .next t) ∧
    (∃ t, decode (placed 0 0x40000000#32 [] []).fetch = .unknown (.opcode 16#6) ∧
      execNoOp ((placed 0 0x40000000#32 [] []).setPc 1#32) = .next t) ∧
    (decode (placed 0 0x8C030002#32 [] []).fetch = .instr (.lw 3#5 0#5 2#16) ∧
      exec (.lw 3#5 0#5 2#16) ((placed 0 0x8C030002#32 [] []).setPc 1#32) = .fault (.raised .misalignedAccess 2)) := by
  refine ⟨by decide, by decide, by unfold State.InCode; decide, ⟨_, by decide, rfl⟩, ⟨_, by decide, rfl⟩, by decide,
    eq_raised (by decide)⟩

theorem witness_StoppedMachinesHaveNoStep :
    (∃ s, load ⟨[(1, 5#32)], [(996, 7#32)], [0x00221820#32]⟩ = some s) ∧
    { State.reset with run := .halted }.run = .halted ∧ { State.reset with run := .faulted }.run = .faulted :=
  ⟨⟨_, rfl⟩, rfl, rfl⟩

/-- The machine that only branches to itself. -/
def looping : State := placed 0 0x1000FFFF#32 [] []

theorem looping_exec (s : State) (h : s.pc = 1#32) :
    exec (.beq 0#5 0#5 0xFFFF#16) s = .next ((s.setPc 0#32).setReport ⟨false, false⟩) := by
  have e : execBeq 0#5 0#5 0xFFFF#16 s = branchIf true 0xFFFF#16 s := by simp only [execBeq, beq_self_eq_true]
  have hp : s.pc + simm 0xFFFF#16 = 0#32 := by rw [h]; decide
  simp only [exec, e, branchIf_eq, if_true, branchTarget, hp]

/-- It stays in the code and never faults, so the second clause of the halting statement is not empty; and the third
clause's premises hold of it. -/
theorem witness_HaltsExactlyPastTheCode :
    looping.run = .running ∧ looping.InCode ∧ decode looping.fetch = .instr (.beq 0#5 0#5 0xFFFF#16) ∧
    ∀ k t, iterations k looping = .next t → t.pc.toInt < (t.codeLen : Int) ∧ t.run ≠ .faulted := by
  refine ⟨by decide, by unfold State.InCode; decide, by decide, fun k t h => ?_⟩
  have main : ∀ k t, iterations k looping = .next t →
      t.pc = 0#32 ∧ t.code = [0x1000FFFF#32] ∧ t.run = .running := by
    intro k
    induction k with
    | zero =>
      intro t h
      rw [← Host.Outcome.next.inj h]
      decide
    | succ k ih =>
      intro t h
      unfold iterations at h
      cases hk : iterations k looping with
      | fault f => simp [hk] at h
      | refused f => simp [hk] at h
      | next u =>
        obtain ⟨h1, h2, h3⟩ := ih u hk
        simp only [hk] at h
        have hf : decode u.fetch = .instr (.beq 0#5 0#5 0xFFFF#16) := by
          unfold State.fetch
          rw [h1, h2]
          decide
        have hr : runWord u.fetch u.advance = .next ((u.advance.setPc 0#32).setReport ⟨false, false⟩) := by
          simp only [runWord, hf]
          exact looping_exec _ (by rw [State.advance_pc, h1]; decide)
        rw [step_in_code u h3 (by rw [h1]; decide) (by rw [h1, State.codeLen_eq, h2]; decide), hr] at h
        rw [← Host.Outcome.next.inj h]
        exact ⟨rfl, h2, h3⟩
  obtain ⟨h1, h2, h3⟩ := main k t h
  rw [State.codeLen_eq, h1, h2, h3]
  decide

/-- A step that faults, of each of the four kinds, with the recorded value at the edge of its range; the premises of both
fault statements. -/
theorem witness_faults :
    FaultCause (placed 0 0x8C0303E9#32 [] []) 1001 .misalignedAccess ∧
    FaultCause (placed 0 0xAC0103E8#32 [] []) 1000 .outOfBounds ∧
    FaultCause (placed 0 0x00221804#32 [(1, 32#32)] []) 32 .shiftOutOfRange ∧
    FaultCause (placed 0 0x00022803#32 [(3, 0xFFFFFFFF#32)] []) (-1) .shiftOutOfRange ∧
    FaultCause { placed 0 0#32 [] [] with pc := 0xFFFFFFFF#32 } (-1) .pcOutOfBounds ∧
    ∃ t, step (placed 0 0x8C0303E9#32 [] []) = .next t ∧ t.run = .faulted := by
  refine ⟨⟨by unfold State.InCode; decide, 3#5, 0#5, 0x3E9#16, .inl (by decide), by decide, by decide⟩,
    ⟨by unfold State.InCode; decide, 1#5, 0#5, 0x3E8#16, .inr (by decide), by decide, by decide, by decide⟩,
    ⟨by unfold State.InCode; decide, by decide, .inr (.inr ⟨3#5, 2#5, 1#5, .inl (by decide), by decide⟩)⟩,
    ⟨by unfold State.InCode; decide, by decide, .inr (.inl ⟨5#5, 2#5, 0#5, by decide, by decide⟩)⟩,
    ⟨by decide, by decide⟩, ?_⟩
  obtain ⟨t, h1, h2⟩ := exists_next (r := step (placed 0 0x8C0303E9#32 [] []))
    (p := fun t => decide (t.run = .faulted)) (by decide)
  exact ⟨t, h1, of_decide_eq_true h2⟩

/-- A state that meets both invariants, is not the reset state, and steps: registers and memory are set, and one
instruction has already been traced. -/
def midway : State :=
  { placed 1 0xAC010000#32 [(1, 42#32), (31, 7#32)] [(996, 5#32)] with
    cycle := 4, instrNo := 2, trace := [⟨1, 1, .IF⟩, ⟨2, 1, .ID⟩, ⟨3, 1, .EX⟩] }

theorem witness_StepKeepsMachineInvariant : midway.Inv ∧ ∃ t, step midway = .next t ∧ t.run = .running := by
  obtain ⟨t, h1, h2⟩ := exists_next (r := step midway) (p := fun t => decide (t.run = .running)) (by decide)
  exact ⟨⟨by decide, by decide, by decide, by decide, by decide, fun r h => by simp [midway, placed, initialState,
    State.reset] at h, by decide⟩, t, h1, of_decide_eq_true h2⟩

theorem witness_StepKeepsTraceInvariant : midway.TraceInv ∧ ∃ t, step midway = .next t := by
  obtain ⟨t, h1, _⟩ := exists_next (r := step midway) (p := fun _ => true) (by decide)
  refine ⟨⟨by decide, fun k e h => ?_, by decide, by decide, by decide⟩, t, h1⟩
  have hk : k < 3 := (List.getElem?_eq_some_iff.1 h).1
  interval_cases k <;> rw [← Option.some.inj h]

/-- A completed instruction and a completed no-op (the premises about what a step traces, writes and leaves alone). -/
theorem witness_completed_steps :
    (midway.run = .running ∧ midway.InCode ∧ decode midway.fetch = .instr (.sw 1#5 0#5 0#16) ∧
      ∃ t, step midway = .next t ∧ t.run = .running) ∧
    ((placed 0 0x40000000#32 [] []).run = .running ∧ (placed 0 0x40000000#32 [] []).InCode ∧
      ∃ t, step (placed 0 0x40000000#32 [] []) = .next t ∧ t.run = .running) ∧
    (∃ t, exec (.sw 1#5 0#5 0#16) midway = .next t) ∧ (∃ t, execNoOp midway = .next t) := by
  obtain ⟨t, h1, h2⟩ := exists_next (r := step midway) (p := fun t => decide (t.run = .running)) (by decide)
  obtain ⟨u, h3, h4⟩ := exists_next (r := step (placed 0 0x40000000#32 [] []))
    (p := fun t => decide (t.run = .running)) (by decide)
  obtain ⟨v, h5, _⟩ := exists_next (r := exec (.sw 1#5 0#5 0#16) midway) (p := fun _ => true) (by decide)
  exact ⟨⟨by decide, by unfold State.InCode; decide, by decide, t, h1, of_decide_eq_true h2⟩,
    ⟨by decide, by unfold State.InCode; decide, u, h3, of_decide_eq_true h4⟩, ⟨v, h5⟩, ⟨_, rfl⟩⟩

theorem witness_OnlyBranchesAndJumpsRedirect :
    (placed 3 0x08000002#32 [] []).InCode ∧
    ∃ t, step (placed 3 0x08000002#32 [] []) = .next t ∧ t.run = .running ∧
      t.pc ≠ (placed 3 0x08000002#32 [] []).pc + 1#32 := by
  obtain ⟨t, h1, h2⟩ := exists_next (r := step (placed 3 0x08000002#32 [] []))
    (p := fun t => decide (t.run = .running ∧ t.pc ≠ (placed 3 0x08000002#32 [] []).pc + 1#32)) (by decide)
  exact ⟨by unfold State.InCode; decide, t, h1, of_decide_eq_true h2⟩

/-- Two states that differ in a register ADD does not read, and agree on the ones it reads; and two that agree on the
amount of a shift that faults. -/
theorem witness_ReadsOnlyTabledRegisters :
    (∃ s₁ s₂ : State, (∀ j ∈ sourceRegs (.add 3#5 1#5 2#5), s₁.readReg j = s₂.readReg j) ∧ s₁.pc = s₂.pc ∧
      s₁.mem = s₂.mem ∧ s₁.readReg 4#5 ≠ s₂.readReg 4#5 ∧ ∃ t, exec (.add 3#5 1#5 2#5) s₁ = .next t) ∧
    (∃ s₁ s₂ : State, (∀ j ∈ sourceRegs (.sllv 3#5 2#5 1#5), s₁.readReg j = s₂.readReg j) ∧ s₁.pc = s₂.pc ∧
      s₁.mem = s₂.mem ∧ s₁.readReg 4#5 ≠ s₂.readReg 4#5 ∧ ∃ f, exec (.sllv 3#5 2#5 1#5) s₁ = .fault f) :=
  ⟨⟨placed 0 0#32 [(1, 5#32), (4, 1#32)] [], placed 0 0#32 [(1, 5#32), (4, 2#32)] [], by decide, by decide, by decide,
      by decide, _, rfl⟩,
    ⟨placed 0 0#32 [(1, 32#32), (4, 1#32)] [], placed 0 0#32 [(1, 32#32), (4, 2#32)] [], by decide, by decide,
      by decide, by decide, _, eq_raised (k := .shiftOutOfRange) (n := 32) (by decide)⟩⟩

/-- A load that gives register 0, a register twice, the last word and one code word; the premises about the write port and
about loads. -/
theorem witness_LoadGivesTheConfiguredState :
    (∃ s, load ⟨[(0, 9#32), (1, 5#32), (1, 6#32), (31, 7#32)], [(0, 1#32), (996, 2#32)], [0x00221820#32]⟩ = some s) ∧
    (1#5 : RegIdx) ≠ 0#5 ∧ (31#5 : RegIdx) ≠ 0#5 ∧ 0 < 250 ∧ 249 < 250 := by
  exact ⟨⟨_, rfl⟩, by decide⟩

/-- A program of two words, the second a branch that is not taken. -/
def straight : State := initialState ⟨[], [], [0x20010005#32, 0x10200002#32]⟩

theorem straight_first (t : State) (h : iterations 1 straight = .next t) :
    t.pc = 1#32 ∧ t.code = straight.code ∧ t.readReg 1#5 = 5#32 := by
  obtain ⟨u, h1, h2⟩ := exists_next (r := iterations 1 straight)
    (p := fun t => decide (t.pc = 1#32 ∧ t.code = straight.code ∧ t.readReg 1#5 = 5#32)) (by decide)
  rw [h1] at h
  rw [← Host.Outcome.next.inj h]
  exact of_decide_eq_true h2

theorem witness_StraightLineProgramsRunToTheEnd :
    straight.Inv ∧ straight.run = .running ∧ straight.pc = 0#32 ∧
    ∀ k t i u, k < straight.codeLen → iterations k straight = .next t → decode t.fetch = .instr i →
      redirects i = true → exec i t.advance = .next u → u.pc = t.pc + 1#32 := by
  refine ⟨⟨by decide, by decide, by decide, by decide, by decide, fun r h => by simp [straight, initialState,
    State.reset] at h, by decide⟩, by decide, by decide, fun k t i u hk ht hd hi hu => ?_⟩
  have hk : k < 2 := hk
  interval_cases k
  · have e : straight = t := Host.Outcome.next.inj ht
    subst e
    rw [show decode straight.fetch = .instr (.addi 1#5 0#5 5#16) by decide] at hd
    rw [← Decoded.instr.inj hd] at hi
    exact absurd hi (by decide)
  · obtain ⟨h1, h2, h3⟩ := straight_first t ht
    have hf : decode t.fetch = .instr (.beq 1#5 0#5 2#16) := by
      unfold State.fetch
      rw [h1, h2]
      decide
    rw [hf] at hd
    rw [← Decoded.instr.inj hd] at hu
    have e : execBeq 1#5 0#5 2#16 t.advance = branchIf false 2#16 t.advance := by
      simp only [execBeq, State.advance_readReg, h3, readReg_zero_eq]
      rfl
    simp only [exec, e, branchIf_eq] at hu
    rw [← Host.Outcome.next.inj hu]
    rfl

theorem witness_RunsHaveOneOfThreeOutcomes : looping.run = .running ∧ straight.run = .running ∧
    (placed 0 0x8C0303E9#32 [] []).run = .running := by decide

theorem witness_DumpListsNonzeroAscending :
    { midway with run := .halted }.run = .halted ∧
    { midway with run := .faulted, fault := some ⟨.outOfBounds, 1000, 1#32, 2⟩ }.run = .faulted := by decide

end Sys2Proof.Tests
end

/-! ## The hardwired register 0 (rules R21, R102) -/

namespace Sys2Proof.Machine

/-- The write port's discard under `ZERO_REG = HARDWIRED` leaves the whole state as it was, slot 0 included. -/
@[simp] theorem writeReg_zero (s : State) (v : Word) : s.writeReg 0#5 v = s := by
  simp [State.writeReg, writeSlot, Config.zeroReg]

theorem writeReg_readReg_of_ne_zero (s : State) (i j : RegIdx) (v : Word) (hi : i ≠ 0#5) :
    (s.writeReg i v).readReg j = if j = i then v else s.readReg j := by
  split
  case isTrue hj => rw [hj, writeReg_readReg_self, if_neg hi]
  case isFalse hj => exact writeReg_readReg_ne s i j v hj

/-- Settles O40 from the laws of the two register ports; a loaded state is an instance of the read law, which holds
whatever slot 0 contains. -/
theorem registerZeroReadsZero : Obligations.RegisterZeroReadsZero :=
  ⟨readReg_zero_eq, writeReg_zero, writeReg_readReg_of_ne_zero, fun _ s _ => readReg_zero_eq s⟩

end Sys2Proof.Machine

/-! ## The memory primitives: the check and the access (rules R51, R52, R53, R56) -/

namespace Sys2Proof.Machine

/-- Both primitives stop at the fault of rule R51's check. -/
theorem memRead_of_wordIndex_error (s : State) {a : Word} {f : Fault} (h : wordIndex a = .error f) :
    s.memRead a = .error f := by
  rw [memRead_eq, h]
  rfl

theorem memWrite_of_wordIndex_error (s : State) {a : Word} (v : Word) {f : Fault} (h : wordIndex a = .error f) :
    s.memWrite a v = .error f := by
  rw [memWrite_eq, h]
  rfl

/-- A good address is the byte address of the word that is accessed. -/
theorem memRead_ok (s : State) (a : Word) (h4 : a.toNat % 4 = 0) (hr : 0 ≤ a.toInt ∧ a.toInt ≤ 996) :
    s.memRead a = .ok (s.mem.readWord a.toNat) := by
  have hk := wordIndex_ok a h4 hr
  rw [memRead_eq, hk, Except.map, (wordIndex_bounds a _ hk).2]

theorem memWrite_ok (s : State) (a v : Word) (h4 : a.toNat % 4 = 0) (hr : 0 ≤ a.toInt ∧ a.toInt ≤ 996) :
    s.memWrite a v = .ok { s with mem := s.mem.writeWord a.toNat v } := by
  have hk := wordIndex_ok a h4 hr
  rw [memWrite_eq, hk, Except.map, (wordIndex_bounds a _ hk).2]

/-- Word `signed(a) / 4` lies at byte address `a` (rules R29, R52). -/
theorem four_mul_toInt_div_four (a : Word) (h4 : a.toNat % 4 = 0) (hr : 0 ≤ a.toInt ∧ a.toInt ≤ 996) :
    4 * (a.toInt / 4).toNat = a.toNat := by
  have ha := (toInt_of_range a hr).1
  omega

/-- Settles O23 by the three cases of the address check: each fault of the check is the answer of both primitives, and on a
good address they are the word laws of the memory at the byte address itself. -/
theorem memoryPrimitivesCheckAndAccess : Obligations.MemoryPrimitivesCheckAndAccess := by
  intro a v s hwf
  refine ⟨fun hmis => ?misaligned, fun h4 hout => ?outOfBounds, fun h4 hr => ⟨?read, ?write⟩⟩
  case misaligned =>
    have he := wordIndex_misaligned a hmis
    exact ⟨memRead_of_wordIndex_error s he, memWrite_of_wordIndex_error s v he⟩
  case outOfBounds =>
    have he := wordIndex_outOfBounds a h4 hout
    exact ⟨memRead_of_wordIndex_error s he, memWrite_of_wordIndex_error s v he⟩
  case read => rw [four_mul_toInt_div_four a h4 hr, memRead_ok s a h4 hr]
  case write =>
    obtain ⟨hasc, -⟩ := hwf
    refine ⟨_, memWrite_ok s a v h4 hr, ?_, fun b hb => Memory.readByte_writeWord_of_outside s.mem hasc _ b hb v,
      rfl, rfl, fun _ => rfl, rfl, rfl, rfl, rfl, rfl, rfl⟩
    rw [memRead_ok _ a h4 hr, Memory.readWord_writeWord_self s.mem hasc]

end Sys2Proof.Machine

/-! ## The layouts and the extensions (rules R71 to R78) -/

namespace Sys2Proof

/-- A field put back at its own place has the word's bits there, and 0 elsewhere. -/
theorem getLsbD_field {n : Nat} (w : BitVec n) (k len i : Nat) :
    ((w.extractLsb' k len).setWidth n <<< k).getLsbD i = (decide (k ≤ i ∧ i < k + len) && w.getLsbD i) := by
  by_cases hk : k ≤ i
  · have hlen : i - k < len ↔ i < k + len := by omega
    by_cases hi : i < n
    · simp [hi, hk, hlen, Nat.add_sub_cancel' hk]
    · simp [hi, BitVec.getLsbD_of_ge w i (by omega)]
  · simp [hk]

/-- Two neighbouring fields put back are one wider field put back. -/
theorem field_or_field {n : Nat} (w : BitVec n) {k k' len len' : Nat} (h : k' = k + len) :
    ((w.extractLsb' k' len').setWidth n <<< k') ||| ((w.extractLsb' k len).setWidth n <<< k) =
      (w.extractLsb' k (len + len')).setWidth n <<< k := by
  apply BitVec.eq_of_getLsbD_eq
  intro i _
  rw [BitVec.getLsbD_or, getLsbD_field, getLsbD_field, getLsbD_field, ← Bool.and_or_distrib_right, ← Bool.decide_or]
  congr 2
  rw [eq_iff_iff]
  omega

/-- The same for the field at the low end of the word, which is put back without a shift. -/
theorem field_or_lowField {n : Nat} (w : BitVec n) (len len' : Nat) :
    ((w.extractLsb' len len').setWidth n <<< len) ||| (w.extractLsb' 0 len).setWidth n =
      (w.extractLsb' 0 (len + len')).setWidth n := by
  simpa using field_or_field w (k := 0) (len' := len') (Nat.zero_add len).symm

/-- Rule R72: from the opcode down, each field of the R layout joins on to the ones above it. -/
theorem layoutR_tiles (w : Word) :
    ((opcodeOf w).setWidth 32 <<< 26) ||| ((rsOf w).setWidth 32 <<< 21) ||| ((rtOf w).setWidth 32 <<< 16) |||
      ((rdOf w).setWidth 32 <<< 11) ||| ((shamtOf w).setWidth 32 <<< 6) ||| (functOf w).setWidth 32 = w := by
  simp only [opcodeOf, rsOf, rtOf, rdOf, shamtOf, functOf, field_or_field, field_or_lowField, Nat.reduceAdd]
  rw [BitVec.extractLsb'_eq_self, BitVec.setWidth_eq]

/-- Rule R73, for the I layout. -/
theorem encI_fields (w : Word) : encI (opcodeOf w) (rtOf w) (rsOf w) (immOf w) = w := by
  simp only [encI, opcodeOf, rsOf, rtOf, immOf, field_or_field, field_or_lowField, Nat.reduceAdd]
  rw [BitVec.extractLsb'_eq_self, BitVec.setWidth_eq]

/-- Rule R74, for the J layout. -/
theorem encJ_fields (w : Word) : encJ (opcodeOf w) (targetOf w) = w := by
  rw [encJ, opcodeOf, targetOf, field_or_lowField, BitVec.extractLsb'_eq_self, BitVec.setWidth_eq]

theorem classify_eq_R_iff (o : Field6) : classify o = .R ↔ o = 0#6 := by
  unfold classify
  split_ifs <;> simp_all

theorem classify_eq_J_iff (o : Field6) : classify o = .J ↔ o = 2#6 ∨ o = 3#6 := by
  unfold classify
  split_ifs with h0 hJ
  · simp [h0]
  · simp [hJ]
  · simp [hJ]

theorem classify_eq_I_iff (o : Field6) : classify o = .I ↔ o ≠ 0#6 ∧ o ≠ 2#6 ∧ o ≠ 3#6 := by
  unfold classify
  split_ifs with h0 hJ
  · simp [h0]
  · rcases hJ with h | h <;> simp [h]
  · simpa [h0] using hJ

/-- Settles O2: each layout's ranges cover the word bit by bit, and the format is `classify`'s case. -/
theorem layoutsTileEveryWord : Obligations.LayoutsTileEveryWord := fun w =>
  ⟨layoutR_tiles w, encI_fields w, encJ_fields w, classify_eq_R_iff _, classify_eq_J_iff _, classify_eq_I_iff _⟩

theorem simm_toInt (imm : Imm16) : (simm imm).toInt = imm.toInt :=
  BitVec.toInt_signExtend_of_le (by decide)

theorem ext26_true_toInt (t : Target26) : (ext26 true t).toInt = t.toInt :=
  BitVec.toInt_signExtend_of_le (by decide)

theorem ext26_false_toNat (t : Target26) : (ext26 false t).toNat = t.toNat :=
  BitVec.toNat_setWidth_of_le (b := t) (w' := 32) (by decide)

/-- 26 unsigned bits leave the sign bit clear. -/
theorem ext26_false_toInt (t : Target26) : (ext26 false t).toInt = t.toNat := by
  have hlt := t.isLt
  rw [BitVec.toInt_eq_toNat_of_lt (by rw [ext26_false_toNat]; omega), ext26_false_toNat]

/-- Settles O3: `off26` is `ext26` under `J_OFFSET_SIGNED = true`. -/
theorem immediatesAreSignExtended : Obligations.ImmediatesAreSignExtended :=
  ⟨simm_toInt, fun t => ⟨ext26_true_toInt t, ext26_true_toInt t, ext26_false_toInt t⟩⟩

/-! ## Unrecognised words (rules R81 to R84, R106) -/

/-- Rule R81's list of the `funct` values that select no instruction. -/
def UnusedFunct (f : Field6) : Prop := f.toNat ∈ [1, 5, 40, 41] ∨ (10 ≤ f.toNat ∧ f.toNat ≤ 31) ∨ 44 ≤ f.toNat

/-- Rule R82's list of the opcodes that select no instruction. -/
def UnusedOpcode (o : Field6) : Prop :=
  (16 ≤ o.toNat ∧ o.toNat ≤ 34) ∨ (36 ≤ o.toNat ∧ o.toNat ≤ 42) ∨ 44 ≤ o.toNat

/-- Rule R83: the opcode-1 `rt` values that are in no row of rule R80's table. -/
def UnusedSubcode (rt : RegIdx) : Prop := rt.toNat ∉ [0, 1, 16, 17]

/-- The last arm of the dispatch is reached by exactly the values the arms before it do not list. -/
theorem selectR_unknown_iff (d : DecodedWord) : (∃ why, selectR d = .unknown why) ↔ UnusedFunct d.funct := by
  have hlt := d.funct.isLt
  unfold selectR UnusedFunct
  simp only [List.mem_cons, List.not_mem_nil, or_false]
  split
  case h_19 =>
    simp only [imp_false] at *
    exact iff_of_true ⟨_, rfl⟩ (by omega)
  all_goals simp [*]

theorem selectSubcode_unknown_iff (d : DecodedWord) :
    (∃ why, selectSubcode d = .unknown why) ↔ UnusedSubcode d.rt := by
  unfold selectSubcode UnusedSubcode
  split
  case h_5 =>
    simp only [imp_false] at *
    exact iff_of_true ⟨_, rfl⟩ (by simp [*])
  all_goals simp [*]

/-- Opcodes 0, 2 and 3 have no row in the I table either, but they are of another format. -/
theorem selectI_unknown_iff (d : DecodedWord) (hI : classify d.opcode = .I) :
    (∃ why, selectI d = .unknown why) ↔ UnusedOpcode d.opcode ∨ (d.opcode = 1#6 ∧ UnusedSubcode d.rt) := by
  rw [classify_eq_I_iff] at hI
  simp only [ne_eq, ← BitVec.toNat_inj, BitVec.toNat_ofNat] at hI ⊢
  unfold selectI UnusedOpcode
  split
  case h_1 h1 => simp [selectSubcode_unknown_iff, h1]
  case h_16 =>
    simp only [imp_false] at *
    exact iff_of_true ⟨_, rfl⟩ (by omega)
  all_goals simp [*]

theorem selectJ_ne_unknown (d : DecodedWord) (hJ : d.opcode = 2#6 ∨ d.opcode = 3#6) (why : Unrecognised) :
    selectJ d ≠ .unknown why := by
  rcases hJ with h | h <;> simp [selectJ, h]

/-- The classes of unrecognised words: an opcode-0 word by its `funct`, an opcode-1 word by its `rt`, any other by its
opcode. -/
theorem decode_unknown_iff (w : Word) :
    (∃ why, decode w = .unknown why) ↔ (opcodeOf w = 0#6 ∧ UnusedFunct (functOf w)) ∨ UnusedOpcode (opcodeOf w) ∨
      (opcodeOf w = 1#6 ∧ UnusedSubcode (rtOf w)) := by
  cases hf : classify (opcodeOf w) with
  | R =>
    have h0 := (classify_eq_R_iff _).1 hf
    have hd : decode w = selectR (decodeWord w) := by simp [decode, select, decodeWord, hf]
    rw [hd, selectR_unknown_iff]
    simp [decodeWord, UnusedOpcode, h0]
  | I =>
    obtain ⟨h0, -, -⟩ := (classify_eq_I_iff _).1 hf
    have hd : decode w = selectI (decodeWord w) := by simp [decode, select, decodeWord, hf]
    rw [hd, selectI_unknown_iff _ hf]
    simp [decodeWord, h0]
  | J =>
    have hJ := (classify_eq_J_iff _).1 hf
    have hd : decode w = selectJ (decodeWord w) := by simp [decode, select, decodeWord, hf]
    rw [hd]
    rcases hJ with h | h <;> simp [selectJ_ne_unknown, decodeWord, UnusedOpcode, h]

end Sys2Proof

namespace Sys2Proof.Machine

theorem runWord_unknown {w : Word} {why : Unrecognised} (h : decode w = .unknown why) (s : State) :
    runWord w s = execNoOp s := by
  rw [runWord, h]

/-- Rule R106 in the run loop: the fetch's increment and the tracer's entries are the whole step. -/
theorem step_unknown {s : State} {why : Unrecognised} (hrun : s.run = .running) (hin : s.InCode)
    (h : decode s.fetch = .unknown why) : step s = .next (s.advance.setReport .idle).traceReport := by
  obtain ⟨h0, hL⟩ := hin
  rw [step_in_code s hrun h0 hL, runWord_unknown h]
  rfl

theorem traceLines_idle (c n : Nat) :
    traceLines c n (stagesOf .idle) = [⟨c, n, .IF⟩, ⟨c + 1, n, .ID⟩, ⟨c + 2, n, .EX⟩] := rfl

/-- Settles O6 from the dispatch's classes of unrecognised words and the step on one. -/
theorem unrecognisedWordsAreNoOps : Obligations.UnrecognisedWordsAreNoOps := by
  refine ⟨fun w => ?listed, fun s why hrun hin h => ?noOp⟩
  case listed => simpa only [UnusedFunct, UnusedOpcode, UnusedSubcode, or_assoc] using decode_unknown_iff w
  case noOp =>
    exact ⟨_, step_unknown hrun hin h, rfl, fun _ => rfl, fun _ => rfl, rfl, hrun, rfl, rfl, rfl,
      congrArg (s.trace ++ ·) (traceLines_idle s.cycle s.instrNo)⟩

end Sys2Proof.Machine

/-! ## The fault's transition (rules R107, R234, R262) -/

namespace Sys2Proof.Machine

/-- Rule R262's transition is the only way into FAULTED: of the four ends of an iteration (past the code, negative pc,
completed, raised) the first leaves HALTED and the third RUNNING. -/
theorem step_faulted {s t : State} (h : step s = .next t) (hf : t.run = .faulted) : ∃ k n, t = s.takeFault k n := by
  obtain ⟨hrun, ⟨-, rfl⟩ | ⟨-, ht⟩ | ⟨-, -, ⟨u, -, hu, rfl⟩ | ⟨k, n, -, ht⟩⟩⟩ := step_cases s t h
  · simp at hf
  · exact ⟨_, _, ht⟩
  · simp [hu.run, hrun] at hf
  · exact ⟨k, n, ht⟩

theorem step_ne_next_of_faulted {s : State} (h : s.run = .faulted) (u : State) : step s ≠ .next u := fun hu => by
  obtain ⟨hrun, -⟩ := step_cases s u hu
  simp [h] at hrun

theorem observe_takeFault (s : State) (k : FaultKind) (n : Int) :
    (s.takeFault k n).observe = some (.faulted s.trace ⟨k, n, s.pc, s.instrNo⟩) := rfl

/-- Settles O33: the faulting step is `takeFault` on the state before the fetch, whose frame is its field lemmas. -/
theorem faultingStepChangesNothingElse : Obligations.FaultingStepChangesNothingElse := by
  intro s t h hf
  obtain ⟨k, n, rfl⟩ := step_faulted h hf
  exact ⟨fun j => s.takeFault_readReg j k n, fun _ => rfl, rfl, rfl, rfl, rfl, rfl,
    ⟨_, s.takeFault_fault k n, rfl, rfl, observe_takeFault s k n⟩, step_ne_next_of_faulted hf⟩

/-! ## The stage-activity report (rule R103) -/

theorem complete_report {m w : Bool} {s t : State} (h : complete m w s = .next t) : t.report = ⟨m, w⟩ := by
  cases h
  rfl

theorem writeResult_report {d : RegIdx} {v : Word} {s t : State} (h : writeResult d v s = .next t) :
    t.report = ⟨false, true⟩ :=
  complete_report h

/-- A shift that completes ends as a register write, whatever its amount was read from. -/
theorem shiftBy_report {amount : Except Fault Nat} {op : Word → Nat → Word} {d b : RegIdx} {s t : State}
    (h : shiftBy amount op d b s = .next t) : t.report = ⟨false, true⟩ := by
  cases amount with
  | error => cases h
  | ok => exact writeResult_report h

theorem execLw_report {rt rs : RegIdx} {imm : Imm16} {s t : State} (h : execLw rt rs imm s = .next t) :
    t.report = ⟨true, true⟩ := by
  obtain ⟨-, rfl⟩ := execLw_next rt rs imm s t h
  rfl

theorem execSw_report {rt rs : RegIdx} {imm : Imm16} {s t : State} (h : execSw rt rs imm s = .next t) :
    t.report = ⟨true, false⟩ := by
  obtain ⟨-, rfl⟩ := execSw_next rt rs imm s t h
  rfl

/-- The cases are the rows of rule R103's table, by the operation the arm ends with. -/
theorem exec_report {i : Instr} {s t : State} (h : exec i s = .next t) : t.report = reportOf i := by
  cases i with
  | add | sub | subu | addu | and | or | xor | nor | slt | sltu | addi | addiu | andi | ori | xori | slti | sltiu
  | lui => exact writeResult_report h
  | sll | srl | sra | sllv | srlv | srav =>
    simp only [exec] at h
    exact shiftBy_report h
  | lw => exact execLw_report h
  | sw => exact execSw_report h
  | jr | jalr | j | jal | beq | bne | bgtz | blez | bgez | bltz | bgezal | bltzal => exact complete_report h

/-- Settles O35; the no-op of rule R106 is `complete` with neither flag set. -/
theorem reportsAreAsTabled : Obligations.ReportsAreAsTabled :=
  ⟨fun _ _ _ h => exec_report h, fun _ _ h => complete_report h⟩

end Sys2Proof.Machine

/-! ## Decoding a laid-out word (rules R76, R80, R88) -/

namespace Sys2Proof

/-- The dispatch of an R-format word sees the fields it was laid out from. -/
theorem decode_encR (f : Field6) (rd rs rt : RegIdx) (sh : BitVec 5) :
    decode (encR f rd rs rt sh) = selectR { decodeWord (encR f rd rs rt sh) with
      rs := rs, rt := rt, rd := rd, shamt := sh, funct := f } := by
  simp only [decode, select, decodeWord, classify_encR, rsOf_encR, rtOf_encR, rdOf_encR, shamtOf_encR, functOf_encR]

/-- The same for an I-format word, whose format is its opcode's class. -/
theorem decode_encI (o : Field6) (rt rs : RegIdx) (imm : Imm16) (ho : classify o = .I) :
    decode (encI o rt rs imm) = selectI { decodeWord (encI o rt rs imm) with
      opcode := o, rs := rs, rt := rt, imm16 := imm } := by
  simp only [decode, select, decodeWord, ho, opcodeOf_encI, rsOf_encI, rtOf_encI, immOf_encI]

end Sys2Proof

/-! ## R-format arithmetic, logic and compare (rules R120 to R129, R172) -/

namespace Sys2Proof.Machine

/-- An instruction that ends as a register write writes the value and leaves everything else (rules R102, R103). -/
theorem writesReg_of_exec_eq {i : Instr} {d : RegIdx} {v w : Word} {s : State} (h : exec i s = writeResult d w s)
    (hv : w = v) : WritesReg i d v s := by
  subst hv
  exact ⟨_, h, writeReg_readReg_self s d w, fun j hj => writeReg_readReg_ne s d j w hj, rfl, rfl, fun _ => rfl,
    rfl, rfl, rfl, rfl, rfl, rfl⟩

/-! ### Sums and differences (rule R9) -/

theorem ofInt_add_toInt (a b : Word) : BitVec.ofInt 32 (a.toInt + b.toInt) = a + b := by
  rw [BitVec.ofInt_add, BitVec.ofInt_toInt, BitVec.ofInt_toInt]

theorem addUnsigned_eq_add (a b : Word) : addUnsigned a b = a + b := (BitVec.add_def a b).symm

/-- Narrowing commutes with subtraction, as `BitVec.ofInt_add` says of addition. -/
theorem ofInt_sub {n : Nat} (x y : Int) : BitVec.ofInt n (x - y) = BitVec.ofInt n x - BitVec.ofInt n y := by
  rw [Int.sub_eq_add_neg, BitVec.ofInt_add, BitVec.ofInt_neg, BitVec.sub_eq_add_neg]

theorem ofInt_sub_toInt (a b : Word) : BitVec.ofInt 32 (a.toInt - b.toInt) = a - b := by
  rw [ofInt_sub, BitVec.ofInt_toInt, BitVec.ofInt_toInt]

theorem subUnsigned_eq_sub (a b : Word) : subUnsigned a b = a - b := by
  simp only [subUnsigned, ofInt_sub, BitVec.ofInt_natCast, BitVec.ofNat_toNat, BitVec.setWidth_eq]

/-- Settles O7: both sums are the addition of words. -/
theorem addAndAdduWrap : Obligations.AddAndAdduWrap := fun rd rs rt sh _ =>
  ⟨decode_encR 0x20#6 rd rs rt sh, decode_encR 0x21#6 rd rs rt sh,
    writesReg_of_exec_eq rfl (ofInt_add_toInt _ _).symm, writesReg_of_exec_eq rfl rfl,
    (ofInt_add_toInt _ _).trans (addUnsigned_eq_add _ _).symm⟩

/-- Settles O8: both differences are the subtraction of words. -/
theorem subAndSubuWrap : Obligations.SubAndSubuWrap := fun rd rs rt sh _ =>
  ⟨decode_encR 0x22#6 rd rs rt sh, decode_encR 0x23#6 rd rs rt sh,
    writesReg_of_exec_eq rfl (ofInt_sub_toInt _ _).symm, writesReg_of_exec_eq rfl rfl,
    (ofInt_sub_toInt _ _).trans (subUnsigned_eq_sub _ _).symm⟩

/-! ### The boolean AND (rules R124, R172) -/

theorem toInt_ne_zero_iff {n : Nat} (a : BitVec n) : a.toInt ≠ 0 ↔ a ≠ 0#n := by
  rw [← BitVec.toInt_zero (w := n), BitVec.toInt_ne]

theorem boolAnd_eq_ite (a b : Word) : boolAnd a b = if a.toInt ≠ 0 ∧ b.toInt ≠ 0 then 1#32 else 0#32 := by
  simp only [boolAnd, boolWord, Bool.and_eq_true, bne_iff_ne, toInt_ne_zero_iff]

/-- Sign extension adds no set bit to a field that has none. -/
theorem simm_toInt_ne_zero_iff (imm : Imm16) : (simm imm).toInt ≠ 0 ↔ imm.toNat ≠ 0 := by
  rw [simm_toInt, toInt_ne_zero_iff, ne_eq, ← BitVec.toNat_inj, BitVec.toNat_zero]

/-- Settles O9: ANDI's operand is nonzero exactly when its field is. -/
theorem andIsBoolean : Obligations.AndIsBoolean := by
  intro rd rs rt sh imm s
  refine ⟨decode_encR 0x24#6 rd rs rt sh, decode_encI 0x0C#6 rt rs imm rfl,
    writesReg_of_exec_eq rfl (boolAnd_eq_ite _ _), writesReg_of_exec_eq rfl ?andi, simm_toInt_ne_zero_iff imm⟩
  case andi => simp only [boolAnd_eq_ite, simm_toInt_ne_zero_iff]

/-! ### Bitwise operations (rules R125, R126, R127) -/

theorem getLsbD_nor (a b : Word) (k : Nat) (hk : k < 32) :
    (~~~(a ||| b)).getLsbD k = !(a.getLsbD k || b.getLsbD k) := by
  rw [BitVec.getLsbD_not, BitVec.getLsbD_or, decide_eq_true hk, Bool.true_and]

/-- Settles O10: the written words are the library's bitwise operations. -/
theorem orXorNorAreBitwise : Obligations.OrXorNorAreBitwise := fun rd rs rt sh _ =>
  ⟨decode_encR 0x25#6 rd rs rt sh, decode_encR 0x26#6 rd rs rt sh, decode_encR 0x27#6 rd rs rt sh,
    ⟨_, writesReg_of_exec_eq rfl rfl, fun _ _ => BitVec.getLsbD_or⟩,
    ⟨_, writesReg_of_exec_eq rfl rfl, fun _ _ => by rw [BitVec.getLsbD_xor, Bool.bne_eq_xor]⟩,
    ⟨_, writesReg_of_exec_eq rfl rfl, getLsbD_nor _ _⟩⟩

/-! ### Comparisons (rules R128, R129) -/

theorem setLess_eq_ite (a b : Word) : setLess a b = if a.toInt < b.toInt then 1#32 else 0#32 := by
  simp only [setLess, boolWord, decide_eq_true_eq]

theorem setLessUnsigned_eq_ite (a b : Word) : setLessUnsigned a b = if a.toNat < b.toNat then 1#32 else 0#32 := by
  simp only [setLessUnsigned, boolWord, decide_eq_true_eq]

/-- Settles O11: on -1 and 1 the two comparisons are closed words. -/
theorem setLessThanSignedAndUnsigned : Obligations.SetLessThanSignedAndUnsigned := by
  intro rd rs rt sh s
  refine ⟨decode_encR 0x2A#6 rd rs rt sh, decode_encR 0x2B#6 rd rs rt sh,
    writesReg_of_exec_eq rfl (setLess_eq_ite _ _), writesReg_of_exec_eq rfl (setLessUnsigned_eq_ite _ _),
    fun hs ht => ?diverge⟩
  case diverge =>
    have ha : s.readReg rs = -1#32 := BitVec.eq_of_toInt_eq hs
    have hb : s.readReg rt = 1#32 := BitVec.eq_of_toInt_eq ht
    exact ⟨writesReg_of_exec_eq rfl (by rw [ha, hb]; decide), writesReg_of_exec_eq rfl (by rw [ha, hb]; decide)⟩

end Sys2Proof.Machine

/-! ## R-format shifts (rules R140 to R146) -/

namespace Sys2Proof.Machine

/-! ### The shifts as arithmetic (rule R10) -/

theorem shiftLeft_eq_mul_pow (b : Word) (n : Nat) : shiftLeft b n = BitVec.ofNat 32 (b.toNat * 2 ^ n) :=
  BitVec.eq_of_toNat_eq (by rw [shiftLeft, BitVec.toNat_shiftLeft, Nat.shiftLeft_eq, BitVec.toNat_ofNat])

/-- Integer division by a positive number rounds down, as the arithmetic shift does. -/
theorem shiftRight_eq_div_pow (b : Word) (n : Nat) : shiftRight b n = BitVec.ofInt 32 (b.toInt / 2 ^ n) := by
  rw [shiftRight, BitVec.sshiftRight_eq, Int.shiftRight_eq_div_pow, Nat.cast_pow, Nat.cast_ofNat]

/-! ### A shift by a register (rule R140) -/

/-- A nonnegative word is the same number read signed and unsigned. -/
theorem toNat_toInt_of_nonneg {n : Nat} (a : BitVec n) (h : 0 ≤ a.toInt) : a.toInt.toNat = a.toNat :=
  BitVec.toNat_toInt_of_msb a (by rw [BitVec.msb_eq_toInt, decide_eq_false (not_lt.2 h)])

section
variable {i : Instr} {op : Word → Nat → Word} {d b r : RegIdx} {s : State}

theorem writesReg_of_shift (hi : exec i s = shiftBy (varAmount r s) op d b s)
    (hr : 0 ≤ (s.readReg r).toInt ∧ (s.readReg r).toInt ≤ 31) :
    WritesReg i d (op (s.readReg b) (s.readReg r).toNat) s := by
  rw [← toNat_toInt_of_nonneg _ hr.1]
  exact writesReg_of_exec_eq (hi.trans (shiftBy_ok _ op d b s hr)) rfl

theorem raises_of_shift (hi : exec i s = shiftBy (varAmount r s) op d b s)
    (hr : ¬ (0 ≤ (s.readReg r).toInt ∧ (s.readReg r).toInt ≤ 31)) :
    Raises i .shiftOutOfRange (s.readReg r).toInt s :=
  hi.trans (shiftBy_fault _ op d b s hr)

theorem writesReg_of_shiftLeft (hi : exec i s = shiftBy (varAmount r s) shiftLeft d b s)
    (hr : 0 ≤ (s.readReg r).toInt ∧ (s.readReg r).toInt ≤ 31) :
    WritesReg i d (BitVec.ofNat 32 ((s.readReg b).toNat * 2 ^ (s.readReg r).toNat)) s :=
  shiftLeft_eq_mul_pow _ _ ▸ writesReg_of_shift hi hr

theorem writesReg_of_shiftRight (hi : exec i s = shiftBy (varAmount r s) shiftRight d b s)
    (hr : 0 ≤ (s.readReg r).toInt ∧ (s.readReg r).toInt ≤ 31) :
    WritesReg i d (BitVec.ofInt 32 ((s.readReg b).toInt / 2 ^ (s.readReg r).toNat)) s :=
  shiftRight_eq_div_pow _ _ ▸ writesReg_of_shift hi hr

end

/-! ### The six shifts -/

theorem fixedAmount_zero (sa : BitVec 5) (s : State) : fixedAmount 0x00#6 sa s = .ok 0 := by
  rw [fixedAmount_eq, BitVec.setWidth_zero, readReg_zero_eq]
  exact shiftAmount_ok Config.shiftRange 0 (by decide)

theorem exec_sll (rd rt : RegIdx) (sa : BitVec 5) (s : State) :
    exec (.sll rd rt sa) s = writeResult rd (shiftLeft (s.readReg rt) 0) s :=
  congrArg (shiftBy · shiftLeft rd rt s) (fixedAmount_zero sa s)

/-- The funct code 3 names the register of SRA's amount (rule R143). -/
theorem exec_sra (rd rt : RegIdx) (sa : BitVec 5) (s : State) :
    exec (.sra rd rt sa) s = shiftBy (varAmount 3#5 s) shiftRight rd rt s := rfl

/-- The funct code 2 names the register of SRL's amount (rule R144). -/
theorem exec_srl (rd rt : RegIdx) (sa : BitVec 5) (s : State) :
    exec (.srl rd rt sa) s = shiftBy (varAmount 2#5 s) shiftRight rd rt s := rfl

/-- A shamt field is in range under either value of `SHIFT_RANGE`. -/
theorem shiftAmount_shamtField (p : ShiftRange) (f : Field6) (sa : BitVec 5) (s : State) :
    shiftAmount p (fixedSource .shamtField f sa s) = .ok sa.toNat :=
  shiftAmount_ok p sa.toNat ⟨Int.natCast_nonneg _, by have := sa.isLt; omega⟩

/-- Settles O12: the amount is register 0, and a shift by 0 copies. -/
theorem sllCopies : Obligations.SllCopies := fun rd rs rt sa s =>
  ⟨decode_encR 0x00#6 rd rs rt sa, fixedAmount_zero sa s,
    writesReg_of_exec_eq (exec_sll rd rt sa s) (BitVec.shiftLeft_zero _), fun p f => shiftAmount_shamtField p f sa s⟩

/-- Settles O13: the shift by a register, read as multiplication. -/
theorem sllvShiftsOrFaults : Obligations.SllvShiftsOrFaults :=
  ⟨fun rd rs rt sh _ => ⟨decode_encR 0x04#6 rd rs rt sh, writesReg_of_shiftLeft rfl, raises_of_shift rfl⟩, rfl, rfl⟩

/-- Settles O14: each is the arithmetic shift by the register its funct code names. -/
theorem sraAndSrlShiftByTheirRegister : Obligations.SraAndSrlShiftByTheirRegister := fun rd rs rt sa s =>
  ⟨decode_encR 0x03#6 rd rs rt sa, decode_encR 0x02#6 rd rs rt sa,
    writesReg_of_shiftRight (exec_sra rd rt sa s), raises_of_shift (exec_sra rd rt sa s),
    writesReg_of_shiftRight (exec_srl rd rt sa s), raises_of_shift (exec_srl rd rt sa s)⟩

/-- Settles O15: both are the arithmetic shift by `x[rs]`. -/
theorem sravAndSrlvAreOneShift : Obligations.SravAndSrlvAreOneShift := fun rd rs rt sh _ =>
  ⟨decode_encR 0x07#6 rd rs rt sh, decode_encR 0x06#6 rd rs rt sh, rfl,
    fun hr => ⟨writesReg_of_shiftRight rfl hr, writesReg_of_shiftRight rfl hr⟩,
    fun hr => ⟨raises_of_shift rfl hr, raises_of_shift rfl hr⟩⟩

end Sys2Proof.Machine

/-! ## Jump-register (rules R160, R161) -/

namespace Sys2Proof.Machine

/-! ### Instructions that end by setting the pc -/

/-- The target's check is the next loop entry's own (rule R236), so every state meets it, however its pc came about; the
tracer, between the two, leaves pc and code alone and adds one to the instruction number. -/
theorem checkedNext (t : State) : CheckedNext t := fun hrun =>
  ⟨fun hp => ⟨_, step_past_end t.traceReport hrun hp, rfl⟩,
    fun hp => ⟨_, step_negative_pc t.traceReport hrun hp, rfl, rfl⟩⟩

theorem movesPc_of_exec_eq {i : Instr} {p : Word} {s : State} (h : exec i s = complete false false (s.setPc p)) :
    MovesPc i p s :=
  ⟨_, h, rfl, fun _ => rfl, rfl, fun _ => rfl, ⟨rfl, rfl, rfl, rfl, rfl, rfl⟩, checkedNext _⟩

/-- With the link write before it, the registers are those of the link write's two laws. -/
theorem movesPcAndLinks_of_exec_eq {i : Instr} {p : Word} {s : State}
    (h : exec i s = complete false false (s.link.setPc p)) : MovesPcAndLinks i p s :=
  ⟨_, h, rfl, link_readReg_self s, link_readReg_ne s, rfl, fun _ => rfl, ⟨rfl, rfl, rfl, rfl, rfl, rfl⟩, checkedNext _⟩

/-! ### JR and JALR -/

theorem exec_jr (rs : RegIdx) (s : State) :
    exec (.jr rs) s = complete false false (s.setPc (s.readReg rs)) := rfl

/-- Under `JALR_ORDER = OPERANDS_FIRST` the target is read from the state before the link write. -/
theorem exec_jalr (rs : RegIdx) (s : State) :
    exec (.jalr rs) s = complete false false (s.link.setPc (s.readReg rs)) := rfl

/-- Settles O16: both end by setting the pc to the old `x[rs]`, JALR after the link write; read after it, R31 is the
advanced pc. -/
theorem jumpRegisterTargets : Obligations.JumpRegisterTargets := fun rd rs rt sh s =>
  ⟨decode_encR 0x08#6 rd rs rt sh, decode_encR 0x09#6 rd rs rt sh, movesPc_of_exec_eq (exec_jr rs s),
    movesPcAndLinks_of_exec_eq (exec_jalr rs s), link_readReg_self s⟩

end Sys2Proof.Machine

/-! ## I-format arithmetic, logic, compare and LUI (rules R170 to R177) -/

namespace Sys2Proof

/-! ### The sign-extended immediate (rule R77) -/

theorem simm_toNat (imm : Imm16) : ((simm imm).toNat : Int) = imm.toInt % 2 ^ 32 := by
  rw [simm, BitVec.signExtend, BitVec.toNat_ofInt, Int.toNat_of_nonneg (Int.emod_nonneg _ (by decide))]
  rfl

theorem simm_getLsbD (imm : Imm16) (k : Nat) (hk : k < 32) :
    (simm imm).getLsbD k = imm.getLsbD (if k < 16 then k else 15) := by
  rw [simm, BitVec.getLsbD_signExtend, decide_eq_true hk, Bool.true_and, BitVec.msb_eq_getLsbD_last,
    apply_ite imm.getLsbD]

end Sys2Proof

namespace Sys2Proof.Machine

/-! ### Sums (rules R170, R171) -/

theorem ofInt_add_imm_toInt (a : Word) (imm : Imm16) : BitVec.ofInt 32 (a.toInt + imm.toInt) = a + simm imm := by
  rw [← simm_toInt, ofInt_add_toInt]

/-- Settles O17: both sums are the addition of the extended immediate. -/
theorem addImmediateWraps : Obligations.AddImmediateWraps := fun rt rs imm _ =>
  ⟨decode_encI 0x08#6 rt rs imm rfl, decode_encI 0x09#6 rt rs imm rfl,
    writesReg_of_exec_eq rfl (ofInt_add_imm_toInt _ imm).symm, writesReg_of_exec_eq rfl rfl,
    (ofInt_add_imm_toInt _ imm).trans (addUnsigned_eq_add _ _).symm⟩

/-! ### Bitwise operations (rules R173, R174) -/

/-- Settles O18: the library's bitwise operations on the extended immediate, whose bits are the field's. -/
theorem orAndXorImmediateAreSigned : Obligations.OrAndXorImmediateAreSigned := fun rt rs imm _ =>
  ⟨decode_encI 0x0D#6 rt rs imm rfl, decode_encI 0x0E#6 rt rs imm rfl,
    ⟨_, writesReg_of_exec_eq rfl rfl, fun k hk => by rw [BitVec.getLsbD_or, simm_getLsbD imm k hk]⟩,
    ⟨_, writesReg_of_exec_eq rfl rfl, fun k hk => by
      rw [BitVec.getLsbD_xor, simm_getLsbD imm k hk, Bool.bne_eq_xor]⟩⟩

/-! ### Comparisons (rules R175, R176) -/

theorem setLess_simm (a : Word) (imm : Imm16) :
    setLess a (simm imm) = if a.toInt < imm.toInt then 1#32 else 0#32 := by
  rw [setLess_eq_ite, simm_toInt]

theorem setLessUnsigned_simm (a : Word) (imm : Imm16) :
    setLessUnsigned a (simm imm) = if (a.toNat : Int) < imm.toInt % 2 ^ 32 then 1#32 else 0#32 := by
  simp only [setLessUnsigned_eq_ite, ← simm_toNat, Int.ofNat_lt]

/-- Settles O19: both compare with the extended immediate, whose signed value is the field's and whose unsigned value is
that one modulo 2^32. -/
theorem setLessThanImmediate : Obligations.SetLessThanImmediate := fun rt rs imm _ =>
  ⟨decode_encI 0x0A#6 rt rs imm rfl, decode_encI 0x0B#6 rt rs imm rfl,
    writesReg_of_exec_eq rfl (setLess_simm _ imm), writesReg_of_exec_eq rfl (setLessUnsigned_simm _ imm)⟩

/-! ### LUI (rule R177) -/

theorem upperHalf_eq_mul (imm : Imm16) : upperHalf imm = BitVec.ofNat 32 (imm.toNat * 65536) :=
  calc upperHalf imm = shiftLeft (imm.setWidth 32) 16 := rfl
    _ = BitVec.ofNat 32 ((imm.setWidth 32).toNat * 2 ^ 16) := shiftLeft_eq_mul_pow _ 16
    _ = BitVec.ofNat 32 (imm.toNat * 2 ^ 16) := by rw [BitVec.toNat_setWidth_of_le (by decide)]

/-- Shifted into the upper half, the extension's copies of the sign bit are lost. -/
theorem simm_shiftLeft_eq_upperHalf (imm : Imm16) : simm imm <<< 16 = upperHalf imm := by
  apply BitVec.eq_of_getLsbD_eq
  intro i hi
  have hlow : i - 16 < 16 := by omega
  have hword : i - 16 < 32 := by omega
  rw [upperHalf, BitVec.getLsbD_shiftLeft, BitVec.getLsbD_shiftLeft, simm_getLsbD imm _ hword, if_pos hlow,
    BitVec.getLsbD_setWidth, decide_eq_true hword, Bool.true_and]

/-- Settles O20: LUI's operation is the register write of the upper half, and the dispatch ignores the rs field. -/
theorem luiLoadsUpperHalf : Obligations.LuiLoadsUpperHalf := fun rt rs imm _ =>
  ⟨decode_encI 0x0F#6 rt rs imm rfl, writesReg_of_exec_eq rfl (upperHalf_eq_mul imm),
    (simm_shiftLeft_eq_upperHalf imm).trans (upperHalf_eq_mul imm)⟩

end Sys2Proof.Machine

/-! ## Loads and stores (rules R190 to R192) -/

namespace Sys2Proof.Machine

/-- Rule R190: the effective address is ADDI's sum. -/
theorem effectiveAddr_eq_ofInt (rs : RegIdx) (imm : Imm16) (s : State) :
    effectiveAddr rs imm s = BitVec.ofInt 32 ((s.readReg rs).toInt + imm.toInt) :=
  (ofInt_add_imm_toInt _ imm).symm

section
variable (rt : RegIdx) {rs : RegIdx} {imm : Imm16} {s : State} {k : FaultKind} {n : Int}

/-- A fault of rule R51's check on the effective address is the fault LW and SW raise. -/
theorem raises_lw_of_wordIndex_error (h : wordIndex (effectiveAddr rs imm s) = .error (.raised k n)) :
    Raises (.lw rt rs imm) k n s :=
  execLw_error rt rs imm s _ h

theorem raises_sw_of_wordIndex_error (h : wordIndex (effectiveAddr rs imm s) = .error (.raised k n)) :
    Raises (.sw rt rs imm) k n s :=
  execSw_error rt rs imm s _ h

end

/-- Settles O21 by the three cases of the address check; a completed load is the write port's laws on the word read. -/
theorem loadWordReadsOrFaults : Obligations.LoadWordReadsOrFaults := by
  intro rt rs imm s
  refine ⟨decode_encI 0x23#6 rt rs imm rfl, effectiveAddr_eq_ofInt rs imm s, fun hmis => ?misaligned,
    fun h4 hout => ?outOfBounds, fun h4 hr => ?completes⟩
  case misaligned => exact raises_lw_of_wordIndex_error rt (wordIndex_misaligned _ hmis)
  case outOfBounds => exact raises_lw_of_wordIndex_error rt (wordIndex_outOfBounds _ h4 hout)
  case completes =>
    exact ⟨_, execLw_ok rt rs imm s h4 hr, writeReg_readReg_self s rt _, fun j hj => writeReg_readReg_ne s rt j _ hj,
      rfl, rfl, fun _ => rfl, rfl, rfl, rfl, rfl, rfl, rfl⟩

/-- Settles O22 by the same three cases; a completed store is the memory's word laws, which need its addresses to rise. -/
theorem storeWordWritesOrFaults : Obligations.StoreWordWritesOrFaults := by
  intro rt rs imm s hwf
  refine ⟨decode_encI 0x2B#6 rt rs imm rfl, fun hmis => ?misaligned, fun h4 hout => ?outOfBounds,
    fun h4 hr => ?completes⟩
  case misaligned => exact raises_sw_of_wordIndex_error rt (wordIndex_misaligned _ hmis)
  case outOfBounds => exact raises_sw_of_wordIndex_error rt (wordIndex_outOfBounds _ h4 hout)
  case completes =>
    obtain ⟨hasc, -⟩ := hwf
    exact ⟨_, execSw_ok rt rs imm s h4 hr, Memory.readWord_writeWord_self s.mem hasc _ _,
      fun b hb => Memory.readByte_writeWord_of_outside s.mem hasc _ b hb _, fun _ => rfl, rfl, rfl, rfl, rfl, rfl, rfl,
      rfl, rfl⟩

end Sys2Proof.Machine

/-! ## Conditional branches (rules R200 to R209) -/

namespace Sys2Proof.Machine

/-! ### The conditions -/

theorem isPositive_iff (a : Word) : isPositive a = true ↔ 0 < a.toInt := decide_eq_true_iff

theorem isNotPositive_iff (a : Word) : isNotPositive a = true ↔ ¬ 0 < a.toInt :=
  decide_eq_true_iff.trans not_lt.symm

theorem isNotNegative_iff (a : Word) : isNotNegative a = true ↔ 0 ≤ a.toInt := decide_eq_true_iff

theorem isNegative_iff (a : Word) : isNegative a = true ↔ ¬ 0 ≤ a.toInt :=
  decide_eq_true_iff.trans not_le.symm

/-! ### Setting the pc (rule R200) -/

theorem branchTarget_eq_ofInt (off : Imm16) (s : State) :
    branchTarget off s = BitVec.ofInt 32 (s.pc.toInt + off.toInt) :=
  (ofInt_add_imm_toInt _ off).symm

section
variable {taken : Bool} {P : Prop} [Decidable P] (off : Imm16) (s : State)

/-- Taken or not, a branch ends by setting the pc: one that is not taken sets it to what it was. -/
theorem branchIf_eq_complete_setPc (h : taken = true ↔ P) :
    branchIf taken off s =
      complete false false (s.setPc (if P then BitVec.ofInt 32 (s.pc.toInt + off.toInt) else s.pc)) := by
  rw [branchIf, branchTarget_eq_ofInt]
  by_cases hP : P
  · rw [if_pos (h.2 hP), if_pos hP]
  · rw [if_neg (mt h.1 hP), if_neg hP]
    rfl

/-- The same for a branch that is taken when `P` fails. -/
theorem branchIf_eq_complete_setPc_of_not (h : taken = true ↔ ¬ P) :
    branchIf taken off s =
      complete false false (s.setPc (if P then s.pc else BitVec.ofInt 32 (s.pc.toInt + off.toInt))) := by
  rw [branchIf_eq_complete_setPc off s h, ite_not]

end

/-! ### The eight branches -/

/-- Settles O25: BEQ is taken on equality, BNE on its negation. -/
theorem branchOnEquality : Obligations.BranchOnEquality := fun rs rt off s =>
  ⟨decode_encI 0x04#6 rt rs off rfl, decode_encI 0x05#6 rt rs off rfl,
    movesPc_of_exec_eq (branchIf_eq_complete_setPc off s beq_iff_eq),
    movesPc_of_exec_eq (branchIf_eq_complete_setPc_of_not off s bne_iff_ne)⟩

/-- Settles O26: BLEZ tests the negation of BGTZ's condition, and the dispatch ignores the rt field of both. -/
theorem branchOnSign : Obligations.BranchOnSign := fun rs rt off s =>
  ⟨decode_encI 0x07#6 rt rs off rfl, decode_encI 0x06#6 rt rs off rfl,
    movesPc_of_exec_eq (branchIf_eq_complete_setPc off s (isPositive_iff _)),
    movesPc_of_exec_eq (branchIf_eq_complete_setPc_of_not off s (isNotPositive_iff _))⟩

/-- Settles O27: BLTZ tests the negation of BGEZ's condition; the sub-code is the rt field of the opcode-1 word. -/
theorem branchOnNegative : Obligations.BranchOnNegative := fun rs off s =>
  ⟨decode_encI 0x01#6 1#5 rs off rfl, decode_encI 0x01#6 0#5 rs off rfl,
    movesPc_of_exec_eq (branchIf_eq_complete_setPc off s (isNotNegative_iff _)),
    movesPc_of_exec_eq (branchIf_eq_complete_setPc_of_not off s (isNegative_iff _))⟩

/-- Settles O28: the plain branch on the state after the link write, which keeps the pc, with the condition of the state
before it. -/
theorem linkBranchesAlwaysLink : Obligations.LinkBranchesAlwaysLink := fun rs off s =>
  ⟨decode_encI 0x01#6 17#5 rs off rfl, decode_encI 0x01#6 16#5 rs off rfl,
    movesPcAndLinks_of_exec_eq (branchIf_eq_complete_setPc off s.link (isNotNegative_iff (s.readReg rs))),
    movesPcAndLinks_of_exec_eq (branchIf_eq_complete_setPc_of_not off s.link (isNegative_iff (s.readReg rs)))⟩

end Sys2Proof.Machine

/-! ## J-format jumps (rules R220, R221) -/

namespace Sys2Proof

/-- The dispatch of a J-format word, like that of an I-format one, sees the opcode and field it was laid out from. -/
theorem decode_encJ (o : Field6) (t : Target26) (ho : classify o = .J) :
    decode (encJ o t) = selectJ { decodeWord (encJ o t) with opcode := o, target := t } := by
  simp only [decode, select, decodeWord, ho, opcodeOf_encJ, targetOf_encJ]

/-- Under `J_OFFSET_SIGNED = true` the offset is the field's signed value (rule R78). -/
theorem off26_toInt (t : Target26) : (off26 t).toInt = t.toInt := ext26_true_toInt t

end Sys2Proof

namespace Sys2Proof.Machine

theorem jumpTarget_eq_ofInt (t : Target26) (s : State) :
    jumpTarget t s = BitVec.ofInt 32 (s.pc.toInt + t.toInt) := by
  rw [jumpTarget, ← off26_toInt, ofInt_add_toInt]

theorem exec_j (t : Target26) (s : State) :
    exec (.j t) s = complete false false (s.setPc (BitVec.ofInt 32 (s.pc.toInt + t.toInt))) := by
  rw [← jumpTarget_eq_ofInt]
  rfl

/-- The target counts from the pc before the link write, which is the pc it links. -/
theorem exec_jal (t : Target26) (s : State) :
    exec (.jal t) s = complete false false (s.link.setPc (BitVec.ofInt 32 (s.pc.toInt + t.toInt))) := by
  rw [← jumpTarget_eq_ofInt]
  rfl

/-- Settles O29: both end by setting the pc to the relative target, JAL after the link write; read unsigned, the
all-ones field is the largest offset. -/
theorem jumpsAreRelative : Obligations.JumpsAreRelative :=
  ⟨fun t s => ⟨decode_encJ 0x02#6 t rfl, decode_encJ 0x03#6 t rfl, movesPc_of_exec_eq (exec_j t s),
    movesPcAndLinks_of_exec_eq (exec_jal t s)⟩, ext26_false_toInt 0x3FFFFFF#26⟩

end Sys2Proof.Machine

/-! ## Decode and encode agree (rules R75, R80 to R88) -/

namespace Sys2Proof

/-- Settles O4: the dispatch of a laid-out word sees the fields it was laid out from, so each instruction's word is
sent to the instruction's own row of rule R80's tables. -/
theorem encodedInstructionsDecodeBack : Obligations.EncodedInstructionsDecodeBack := by
  intro i _
  cases i with
  | add | sub | subu | addu | and | or | xor | nor | slt | sltu | sll | sllv | sra | srl | srav | srlv | jr | jalr =>
    exact decode_encR _ _ _ _ _
  | addi | addiu | andi | ori | xori | slti | sltiu | lui | lw | sw | beq | bne | bgtz | blez | bgez | bgezal | bltz
  | bltzal => exact decode_encI _ _ _ _ rfl
  | j | jal => exact decode_encJ _ _ rfl

/-! ### Fields as masks -/

/-- A field put back at its own place is the word under the field's mask. -/
theorem field_eq_and (w : Word) (k len : Nat) :
    (w.extractLsb' k len).setWidth 32 <<< k = w &&& ((BitVec.allOnes len).setWidth 32 <<< k) := by
  apply BitVec.eq_of_getLsbD_eq
  intro i hi
  rw [getLsbD_field, BitVec.getLsbD_and, BitVec.getLsbD_shiftLeft, BitVec.getLsbD_setWidth, BitVec.getLsbD_allOnes]
  grind

theorem lowField_eq_and (w : Word) (len : Nat) :
    (w.extractLsb' 0 len).setWidth 32 = w &&& (BitVec.allOnes len).setWidth 32 := by
  simpa using field_eq_and w 0 len

/-- The opcode's bits of an opcode-0 word are clear, whether a mask keeps them or not. -/
theorem and_opcodeMask_or {w : Word} (h : opcodeOf w = 0#6) (m : Word) : w &&& (0xFC000000#32 ||| m) = w &&& m := by
  have hfield := field_eq_and w 26 6
  have hclear : w &&& 0xFC000000#32 = 0#32 := hfield.symm.trans (by rw [show w.extractLsb' 26 6 = 0#6 from h]; rfl)
  rw [BitVec.and_or_distrib_left, hclear, BitVec.zero_or]

section
variable {w : Word} {f o : Field6}

/-- An R-format word without its `shamt` field. -/
theorem encR_without_shamt (h : opcodeOf w = 0#6) (hf : (functOf w).toNat = f.toNat) :
    encR f (rdOf w) (rsOf w) (rtOf w) 0#5 = w &&& 0xFFFFF83F#32 := by
  rw [← BitVec.eq_of_toNat_eq hf, show 0xFFFFF83F#32 = 0xFC000000#32 ||| 0x03FFF83F#32 from rfl, and_opcodeMask_or h]
  simp [encR, functOf, rdOf, rsOf, rtOf, field_eq_and, lowField_eq_and, ← BitVec.and_or_distrib_left]

/-- An R-format word without its `rs` field. -/
theorem encR_without_rs (h : opcodeOf w = 0#6) (hf : (functOf w).toNat = f.toNat) :
    encR f (rdOf w) 0#5 (rtOf w) (shamtOf w) = w &&& 0xFC1FFFFF#32 := by
  rw [← BitVec.eq_of_toNat_eq hf, show 0xFC1FFFFF#32 = 0xFC000000#32 ||| 0x001FFFFF#32 from rfl, and_opcodeMask_or h]
  simp [encR, functOf, rdOf, rtOf, shamtOf, field_eq_and, lowField_eq_and, ← BitVec.and_or_distrib_left]

/-- An R-format word with its `rs` field only. -/
theorem encR_rs_only (h : opcodeOf w = 0#6) (hf : (functOf w).toNat = f.toNat) :
    encR f 0#5 (rsOf w) 0#5 0#5 = w &&& 0xFFE0003F#32 := by
  rw [← BitVec.eq_of_toNat_eq hf, show 0xFFE0003F#32 = 0xFC000000#32 ||| 0x03E0003F#32 from rfl, and_opcodeMask_or h]
  simp [encR, functOf, rsOf, field_eq_and, lowField_eq_and, ← BitVec.and_or_distrib_left]

/-- A whole I-format word. -/
theorem encI_whole (ho : (opcodeOf w).toNat = o.toNat) : encI o (rtOf w) (rsOf w) (immOf w) = w &&& 0xFFFFFFFF#32 := by
  rw [← BitVec.eq_of_toNat_eq ho, encI_fields]
  exact BitVec.and_allOnes.symm

/-- An I-format word of opcode 1, whose `rt` field is the sub-code. -/
theorem encI_subcode {c : RegIdx} (ho : (opcodeOf w).toNat = 1) (hc : (rtOf w).toNat = c.toNat) :
    encI 1#6 c (rsOf w) (immOf w) = w &&& 0xFFFFFFFF#32 := by
  rw [← BitVec.eq_of_toNat_eq hc, encI_whole ho]

/-- An I-format word without its `rs` field. -/
theorem encI_without_rs (ho : (opcodeOf w).toNat = o.toNat) :
    encI o (rtOf w) 0#5 (immOf w) = w &&& 0xFC1FFFFF#32 := by
  rw [← BitVec.eq_of_toNat_eq ho]
  simp [encI, opcodeOf, rtOf, immOf, field_eq_and, lowField_eq_and, ← BitVec.and_or_distrib_left]

/-- An I-format word without its `rt` field. -/
theorem encI_without_rt (ho : (opcodeOf w).toNat = o.toNat) :
    encI o 0#5 (rsOf w) (immOf w) = w &&& 0xFFE0FFFF#32 := by
  rw [← BitVec.eq_of_toNat_eq ho]
  simp [encI, opcodeOf, rsOf, immOf, field_eq_and, lowField_eq_and, ← BitVec.and_or_distrib_left]

/-- A whole J-format word. -/
theorem encJ_whole (ho : (opcodeOf w).toNat = o.toNat) : encJ o (targetOf w) = w &&& 0xFFFFFFFF#32 := by
  rw [← BitVec.eq_of_toNat_eq ho, encJ_fields]
  exact BitVec.and_allOnes.symm

end

/-! ### The rows of the dispatch, read back -/

section
variable {w : Word} {i : Instr}

/-- A row of the R table keeps what its assembly form names: a shift's `shamt`, a jump's `rs`, three registers. -/
theorem encode_of_selectR (ho : opcodeOf w = 0#6) (h : selectR (decodeWord w) = .instr i) :
    encode i = w &&& namedBits i := by
  unfold selectR at h
  split at h <;> cases h
  case h_1 hf | h_2 hf | h_3 hf => exact encR_without_rs ho hf
  case h_7 hf | h_8 hf => exact encR_rs_only ho hf
  all_goals exact encR_without_shamt ho ‹_›

theorem encode_of_selectSubcode (ho : (opcodeOf w).toNat = 1) (h : selectSubcode (decodeWord w) = .instr i) :
    encode i = w &&& namedBits i := by
  unfold selectSubcode at h
  split at h <;> cases h
  all_goals exact encI_subcode ho ‹_›

/-- A row of the I table keeps the whole word, but for the `rt` field of BLEZ and BGTZ and the `rs` field of LUI. -/
theorem encode_of_selectI (h : selectI (decodeWord w) = .instr i) : encode i = w &&& namedBits i := by
  unfold selectI at h
  split at h
  case h_1 ho => exact encode_of_selectSubcode ho h
  all_goals cases h
  case h_4 ho | h_5 ho => exact encI_without_rt ho
  case h_13 ho => exact encI_without_rs ho
  all_goals exact encI_whole ‹_›

theorem encode_of_selectJ (h : selectJ (decodeWord w) = .instr i) : encode i = w &&& namedBits i := by
  unfold selectJ at h
  split at h <;> cases h
  all_goals exact encJ_whole ‹_›

end

/-- Settles O5 by the format: a row of each table lays out again the fields it was selected by and the fields it names. -/
theorem decodedWordsReencodeOnNamedBits : Obligations.DecodedWordsReencodeOnNamedBits := by
  intro w i h
  rw [decode, select] at h
  split at h
  case h_1 hf => exact encode_of_selectR ((classify_eq_R_iff _).1 hf) h
  case h_2 => exact encode_of_selectI h
  case h_3 => exact encode_of_selectJ h

end Sys2Proof

/-! ## The machine's invariant (10_state.md, 60_exceptions.md section 2) -/

namespace Sys2Proof.Machine

/-- The 250 words fill the data space (rule R29). -/
theorem wordAddr_add_four_le {k : Nat} (hk : k < Config.memWords) : wordAddr k + 4 ≤ memBytes := by
  simp only [wordAddr, memBytes, Config.memAddrStep, Config.memWords] at *
  omega

namespace Completed

variable {s t : State}

theorem mem_wf (h : Completed s t) (hs : s.mem.wf) : t.mem.wf := by
  rcases h.mem with hm | ⟨k, v, hk, hm⟩
  · rwa [hm]
  · rw [hm]
    exact Memory.wf_writeWord _ hs _ (wordAddr_add_four_le hk) v

theorem slot_zero (h : Completed s t) : t.regs[0] = s.regs[0] := by
  rcases h.regs with hr | ⟨d, v, hr⟩
  · rw [hr]
  · rw [hr]
    exact writeReg_slot_zero s d v

end Completed

namespace State.Inv

variable {s t : State}

theorem fault_eq_none (hs : s.Inv) (hrun : s.run = .running) : s.fault = none :=
  Option.not_isSome_iff_eq_none.1 fun h => by simpa [hrun] using hs.fault_iff.2 h

/-- Entering HALTED changes the run state only, and the loop entry's test is the clause on HALTED (rules R236, R237). -/
theorem enterHalted (hs : s.Inv) (hrun : s.run = .running) (hp : (s.codeLen : Int) ≤ s.pc.toInt) :
    s.enterHalted.Inv where
  mem_wf := hs.mem_wf
  code_fits := hs.code_fits
  slot_zero := hs.slot_zero
  report_idle := hs.report_idle
  fault_iff := by simp [hs.fault_eq_none hrun]
  record_ok := hs.record_ok
  halted_past _ := hp

/-- The record names the state it is taken on (rule R262). -/
theorem takeFault (hs : s.Inv) (k : FaultKind) (n : Int) : (s.takeFault k n).Inv where
  mem_wf := hs.mem_wf
  code_fits := hs.code_fits
  slot_zero := hs.slot_zero
  report_idle := hs.report_idle
  fault_iff := by simp
  record_ok := by simp
  halted_past := by simp

/-- An iteration that completes is still RUNNING without a record, and the tracer has consumed the report. -/
theorem traceReport (hs : s.Inv) (hrun : s.run = .running) (h : Completed s.advance t) : t.traceReport.Inv where
  mem_wf := h.mem_wf hs.mem_wf
  code_fits := by simpa [h.code] using hs.code_fits
  slot_zero := h.slot_zero.trans hs.slot_zero
  report_idle := rfl
  fault_iff := by simpa [h.run, h.fault] using hs.fault_iff
  record_ok := by simp [h.fault, hs.fault_eq_none hrun]
  halted_past := by simp [h.run, hrun]

end State.Inv

/-- Settles O42 by the four ends of an iteration. -/
theorem stepKeepsMachineInvariant : Obligations.StepKeepsMachineInvariant := by
  intro s t hs h
  obtain ⟨hrun, ⟨hp, rfl⟩ | ⟨-, rfl⟩ | ⟨-, -, ⟨u, -, hu, rfl⟩ | ⟨k, n, -, rfl⟩⟩⟩ := step_cases s t h
  · exact hs.enterHalted hrun hp
  · exact hs.takeFault _ _
  · exact hs.traceReport hrun hu
  · exact hs.takeFault k n

/-! ## The trace (rules R230 to R234, R298) -/

/-! ### The entries of one instruction -/

section
variable (c n : Nat) (l : List Stage)

theorem traceLines_getElem? (k : Nat) : (traceLines c n l)[k]? = l[k]?.map fun st => ⟨c + k, n, st⟩ := by
  induction l generalizing c k with
  | nil => simp [traceLines]
  | cons st rest ih =>
    cases k with
    | zero => simp [traceLines]
    | succ k => simp [traceLines, ih, Nat.add_assoc, Nat.add_comm 1 k]

@[simp] theorem traceLines_length : (traceLines c n l).length = l.length := by
  induction l generalizing c with
  | nil => rfl
  | cons st rest ih => simp [traceLines, ih]

@[simp] theorem traceLines_map_stage : (traceLines c n l).map (·.stage) = l := by
  induction l generalizing c with
  | nil => rfl
  | cons st rest ih => simp [traceLines, ih]

theorem traceLines_map_cycle : (traceLines c n l).map (·.cycle) = List.range' c l.length := by
  induction l generalizing c with
  | nil => rfl
  | cons st rest ih => simp [traceLines, ih, List.range'_succ]

theorem instrNo_of_mem_traceLines {e : TraceEntry} (h : e ∈ traceLines c n l) : e.instrNo = n := by
  obtain ⟨k, hk⟩ := List.mem_iff_getElem?.1 h
  rw [traceLines_getElem?] at hk
  obtain ⟨st, -, rfl⟩ := Option.map_eq_some_iff.1 hk
  rfl

/-- Each entry stands for its stage, so the stages of a kind are counted in the list of stages. -/
theorem traceLines_countP_stage (p : Stage → Bool) : (traceLines c n l).countP (fun e => p e.stage) = l.countP p :=
  calc (traceLines c n l).countP (fun e => p e.stage) = ((traceLines c n l).map (·.stage)).countP p :=
        List.countP_map.symm
    _ = l.countP p := by rw [traceLines_map_stage]

end

/-- Every report has exactly one IF (rule R232). -/
theorem stagesOf_countP_IF (r : Report) : (stagesOf r).countP (fun st => decide (st = .IF)) = 1 := by
  obtain ⟨mem, wb⟩ := r
  cases mem <;> cases wb <;> rfl

/-! ### The invariant -/

namespace State.TraceInv

variable {s t : State}

/-- The invariant speaks of the trace and its counters only. -/
theorem congr (hs : s.TraceInv) (hc : t.cycle = s.cycle) (hn : t.instrNo = s.instrNo) (ht : t.trace = s.trace) :
    t.TraceInv where
  cycle_next := by rw [hc, ht, hs.cycle_next]
  consecutive := by rw [ht]; exact hs.consecutive
  instr_next := by rw [hn, ht, hs.instr_next]
  rising := by rw [ht]; exact hs.rising
  in_range := by rw [hn, ht]; exact hs.in_range

/-- The tracer's lines are numbered from `C` on and carry `N`, which is above every number before it. -/
theorem traceReport (hs : s.TraceInv) : s.traceReport.TraceInv where
  cycle_next := by simp [hs.cycle_next, Nat.add_assoc]
  consecutive k e h := by
    rw [State.traceReport_trace, List.getElem?_append] at h
    split at h
    case isTrue => exact hs.consecutive k e h
    case isFalse hk =>
      rw [traceLines_getElem?] at h
      obtain ⟨st, -, rfl⟩ := Option.map_eq_some_iff.1 h
      have hc := hs.cycle_next
      show s.cycle + (k - s.trace.length) = Config.cycleStart + k
      omega
  instr_next := by
    have hIF := traceLines_countP_stage s.cycle s.instrNo (stagesOf s.report) (fun st => decide (st = .IF))
    rw [State.traceReport_trace, List.countP_append, hIF, stagesOf_countP_IF, State.traceReport_instrNo, hs.instr_next,
      Nat.add_assoc]
  rising := by
    rw [State.traceReport_trace, List.pairwise_append]
    refine ⟨hs.rising, ?lines, fun d hd e he => ?across⟩
    case lines =>
      refine List.pairwise_of_forall_mem_list fun d hd e he => ?_
      rw [instrNo_of_mem_traceLines _ _ _ hd, instrNo_of_mem_traceLines _ _ _ he]
    case across =>
      rw [instrNo_of_mem_traceLines _ _ _ he]
      exact (hs.in_range d hd).2.le
  in_range e he := by
    have hn := hs.instr_next
    rw [State.traceReport_instrNo]
    rcases List.mem_append.1 he with he | he
    · obtain ⟨h1, h2⟩ := hs.in_range e he
      omega
    · rw [instrNo_of_mem_traceLines _ _ _ he]
      omega

end State.TraceInv

/-- Settles O43: only a completed iteration reaches the tracer, and it starts from the trace as it was. -/
theorem stepKeepsTraceInvariant : Obligations.StepKeepsTraceInvariant := by
  intro s t hs h
  obtain ⟨-, ⟨-, rfl⟩ | ⟨-, rfl⟩ | ⟨-, -, ⟨u, -, hu, rfl⟩ | ⟨k, n, -, rfl⟩⟩⟩ := step_cases s t h
  · exact hs.congr rfl rfl rfl
  · exact hs.congr rfl rfl rfl
  · exact (hs.congr hu.cycle hu.instrNo hu.trace).traceReport
  · exact hs.congr rfl rfl rfl

/-- Settles O41 by the same four ends; no execution writes the code store. -/
theorem noStepChangesTheCode : Obligations.NoStepChangesTheCode := by
  intro s t h
  obtain ⟨-, ⟨-, rfl⟩ | ⟨-, rfl⟩ | ⟨-, -, ⟨u, -, hu, rfl⟩ | ⟨k, n, -, rfl⟩⟩⟩ := step_cases s t h
  · rfl
  · rfl
  · exact hu.code
  · rfl

end Sys2Proof.Machine

/-! ## Words of memory (rules R52, R53, R63) -/

namespace Sys2Proof.Machine

/-- Two words of memory coincide or do not overlap. -/
theorem Memory.readWord_writeWord_aligned (m : Memory) (hm : m.wf) {a b : Nat} (ha : a % 4 = 0) (hb : b % 4 = 0)
    (v : Word) : (m.writeWord a v).readWord b = if b = a then v else m.readWord b := by
  obtain ⟨hasc, -⟩ := hm
  split
  case isTrue h => rw [h, readWord_writeWord_self m hasc]
  case isFalse h => exact readWord_writeWord_of_disjoint m hasc a b (by omega) v

/-- Settles O24: the load reads the memory the store left, at a word that is the stored one or apart from it. -/
theorem loadReturnsMostRecentStore : Obligations.LoadReturnsMostRecentStore := by
  intro rt rs rt' rs' imm imm' s t u hwf hsw hlw
  obtain ⟨⟨ha, -⟩, ht⟩ := execSw_next rt rs imm s t hsw
  obtain ⟨⟨hb, -⟩, rfl⟩ := execLw_next rt' rs' imm' t u hlw
  have hmem : t.mem = s.mem.writeWord (effectiveAddr rs imm s).toNat (s.readReg rt) := by rw [ht]; rfl
  simp only [State.setReport_readReg, writeReg_readReg_self, hmem, Memory.readWord_writeWord_aligned s.mem hwf ha hb,
    BitVec.toNat_inj]

/-! ## The load (rules R290 to R292) -/

/-! ### The registers -/

/-- The write port beside a register that is not register 0, whichever register is written. -/
theorem readSlot_writeSlot_of_ne_zero (regs : Vector Word 32) (i j : RegIdx) (v : Word) (hj : j ≠ 0#5) :
    readSlot Config.zeroReg (writeSlot Config.zeroReg regs i v) j =
      if j = i then v else readSlot Config.zeroReg regs j := by
  have hs := writeReg_readReg_of_ne_zero { State.reset with regs := regs } i j v
  by_cases hi : i = 0#5
  · rw [hi, if_neg hj]
    rfl
  · exact hs hi

theorem loadRegs_concat (pairs : List (Nat × Word)) (p : Nat × Word) :
    loadRegs (pairs ++ [p]) = writeSlot Config.zeroReg (loadRegs pairs) (BitVec.ofNat 5 p.1) p.2 := by
  simp [loadRegs]

/-- The last of the pairs, in the order of the configuration, that has this key (rule R292). -/
def lastFor (pairs : List (Nat × Word)) (k : Nat) : Word :=
  ((pairs.reverse.find? fun p => p.1 == k).map (·.2)).getD 0#32

theorem lastFor_concat (pairs : List (Nat × Word)) (p : Nat × Word) (k : Nat) :
    lastFor (pairs ++ [p]) k = if p.1 = k then p.2 else lastFor pairs k := by
  by_cases h : p.1 = k <;> simp [lastFor, h]

/-- An admitted register index is its own 5-bit field. -/
theorem eq_ofNat_iff (i : RegIdx) {n : Nat} (hn : n < 32) : i = BitVec.ofNat 5 n ↔ n = i.toNat := by
  rw [← BitVec.toNat_inj, BitVec.toNat_ofNat, Nat.mod_eq_of_lt hn, eq_comm]

theorem readSlot_loadRegs (pairs : List (Nat × Word)) (hp : ∀ p ∈ pairs, p.1 < 32) (i : RegIdx) (hi : i ≠ 0#5) :
    readSlot Config.zeroReg (loadRegs pairs) i = lastFor pairs i.toNat := by
  induction pairs using List.reverseRecOn with
  | nil => simp [loadRegs, readSlot, lastFor]
  | append_singleton pairs p ih =>
    have hlt : p.1 < 32 := hp p (by simp)
    rw [loadRegs_concat, readSlot_writeSlot_of_ne_zero _ _ _ _ hi, lastFor_concat, ih fun q hq => hp q (by simp [hq])]
    simp only [eq_ofNat_iff i hlt]

theorem loadRegs_slot_zero (pairs : List (Nat × Word)) : (loadRegs pairs)[0] = 0#32 := by
  induction pairs using List.reverseRecOn with
  | nil => simp [loadRegs]
  | append_singleton pairs p ih =>
    rw [loadRegs_concat]
    exact (writeReg_slot_zero { State.reset with regs := loadRegs pairs } _ p.2).trans ih

/-! ### The memory -/

theorem Memory.readWord_nil (a : Nat) : readWord [] a = 0#32 :=
  show 0#8 ++ 0#8 ++ 0#8 ++ 0#8 = 0#32 from rfl

theorem loadMem_concat (pairs : List (Nat × Word)) (p : Nat × Word) :
    loadMem (pairs ++ [p]) = (loadMem pairs).writeWord p.1 p.2 := by
  simp [loadMem]

theorem loadMem_wf (pairs : List (Nat × Word)) (hp : ∀ p ∈ pairs, p.1 % 4 = 0 ∧ p.1 ≤ 996) : (loadMem pairs).wf := by
  induction pairs using List.reverseRecOn with
  | nil => exact Memory.wf_nil
  | append_singleton pairs p ih =>
    obtain ⟨-, hle⟩ := hp p (by simp)
    rw [loadMem_concat]
    have hfits : p.1 + 4 ≤ memBytes := by
      simp only [memBytes, Config.memWords, Config.memAddrStep]
      omega
    exact Memory.wf_writeWord _ (ih fun q hq => hp q (by simp [hq])) _ hfits _

theorem readWord_loadMem (pairs : List (Nat × Word)) (hp : ∀ p ∈ pairs, p.1 % 4 = 0 ∧ p.1 ≤ 996) (k : Nat) :
    (loadMem pairs).readWord (4 * k) = lastFor pairs (4 * k) := by
  induction pairs using List.reverseRecOn with
  | nil => simp [loadMem, Memory.readWord_nil, lastFor]
  | append_singleton pairs p ih =>
    have hpairs : ∀ q ∈ pairs, q.1 % 4 = 0 ∧ q.1 ≤ 996 := fun q hq => hp q (by simp [hq])
    obtain ⟨h4, -⟩ := hp p (by simp)
    rw [loadMem_concat, Memory.readWord_writeWord_aligned _ (loadMem_wf pairs hpairs) h4 (by omega), lastFor_concat,
      ih hpairs]
    simp only [eq_comm]

/-! ### The loaded state -/

/-- Rule R291's conditions. -/
theorem loadImage_wf_iff (im : LoadImage) : im.wf = true ↔
    (∀ p ∈ im.regs, p.1 < 32) ∧ (∀ p ∈ im.mem, p.1 % 4 = 0 ∧ p.1 ≤ 996) ∧ im.code.length ≤ 1024 := by
  simp [LoadImage.wf, LoadImage.regsOk, LoadImage.memOk, LoadImage.codeOk, and_assoc]

theorem load_eq_some_iff (im : LoadImage) (s : State) : load im = some s ↔ im.wf = true ∧ initialState im = s := by
  simp [load]

theorem initialState_inv (im : LoadImage) (hwf : im.wf = true) : (initialState im).Inv := by
  obtain ⟨-, hmem, hcode⟩ := (loadImage_wf_iff im).1 hwf
  exact {
    mem_wf := loadMem_wf im.mem hmem
    code_fits := hcode
    slot_zero := loadRegs_slot_zero im.regs
    report_idle := rfl
    fault_iff := by simp [initialState, State.reset]
    record_ok := by simp [initialState, State.reset]
    halted_past := by simp [initialState, State.reset] }

theorem initialState_traceInv (im : LoadImage) : (initialState im).TraceInv where
  cycle_next := rfl
  consecutive k e h := by simp [initialState, State.reset] at h
  instr_next := rfl
  rising := List.Pairwise.nil
  in_range e h := by simp [initialState, State.reset] at h

/-- Settles O45: an admitted load's state is `initialState`, whose registers and memory hold the last pair for each
key. -/
theorem loadGivesTheConfiguredState : Obligations.LoadGivesTheConfiguredState := by
  intro im
  simp only [load_eq_some_iff]
  refine ⟨?admitted, ?state⟩
  case admitted => simp [loadImage_wf_iff]
  case state =>
    rintro s ⟨hwf, rfl⟩
    obtain ⟨hregs, hmem, -⟩ := (loadImage_wf_iff im).1 hwf
    exact ⟨readReg_zero_eq _, readSlot_loadRegs im.regs hregs, fun k _ => readWord_loadMem im.mem hmem k, rfl, rfl, rfl,
      rfl, rfl, rfl, rfl, initialState_inv im hwf, initialState_traceInv im⟩

/-- The load of the configuration that gives nothing (assumption log entry 1). -/
theorem load_empty : load ⟨[], [], []⟩ = some State.reset := rfl

theorem reset_readReg (i : RegIdx) : State.reset.readReg i = 0#32 := by
  by_cases hi : i = 0#5
  · rw [hi, readReg_zero_eq]
  · exact readSlot_loadRegs [] (by simp) i hi

/-- Settles O44 as the case of the empty configuration. -/
theorem resetStateIsLegal : Obligations.ResetStateIsLegal :=
  ⟨initialState_inv ⟨[], [], []⟩ rfl, initialState_traceInv ⟨[], [], []⟩, load_empty, reset_readReg, fun _ => rfl, rfl,
    rfl, rfl, rfl, rfl, rfl, rfl⟩

/-- Settles O1: the eleven words are closed. -/
theorem writtenOutWordsDecode : Obligations.WrittenOutWordsDecode := by
  unfold Obligations.WrittenOutWordsDecode
  decide

end Sys2Proof.Machine

/-! ## What a completed instruction does (rules R23, R26) -/

namespace Sys2Proof.Machine

/-- The state a completed instruction leaves, by what it writes: its tabled register, a word of memory, the pc, or the
pc and R31. -/
inductive Effect (i : Instr) (s : State) : State → Prop
  | write {d : RegIdx} (v : Word) (r : Report) (hd : destReg i = some d) (hr : redirects i = false) :
    Effect i s ((s.writeReg d v).setReport r)
  | store {rt rs : RegIdx} {imm : Imm16} (m : Memory) (r : Report) (hi : i = .sw rt rs imm) :
    Effect i s (State.setReport { s with mem := m } r)
  | move (p : Word) (r : Report) (hd : destReg i = none) (hr : redirects i = true) :
    Effect i s ((s.setPc p).setReport r)
  | moveAndLink (p : Word) (r : Report) (hd : destReg i = some linkReg) (hr : redirects i = true) :
    Effect i s ((s.link.setPc p).setReport r)

section
variable {i : Instr} {s t : State}

theorem effect_writeResult {d : RegIdx} {v : Word} (hd : destReg i = some d) (hr : redirects i = false)
    (h : writeResult d v s = .next t) : Effect i s t := by
  cases h
  exact .write v _ hd hr

theorem effect_shiftBy {amount : Except Fault Nat} {op : Word → Nat → Word} {d b : RegIdx} (hd : destReg i = some d)
    (hr : redirects i = false) (h : shiftBy amount op d b s = .next t) : Effect i s t := by
  cases amount with
  | error => cases h
  | ok => exact effect_writeResult hd hr h

theorem effect_setPc {p : Word} (hd : destReg i = none) (hr : redirects i = true)
    (h : complete false false (s.setPc p) = .next t) : Effect i s t := by
  cases h
  exact .move p _ hd hr

theorem effect_link {p : Word} (hd : destReg i = some linkReg) (hr : redirects i = true)
    (h : complete false false (s.link.setPc p) = .next t) : Effect i s t := by
  cases h
  exact .moveAndLink p _ hd hr

theorem effect_branchIf {taken : Bool} {off : Imm16} (hd : destReg i = none) (hr : redirects i = true)
    (h : branchIf taken off s = .next t) : Effect i s t :=
  effect_setPc hd hr ((branchIf_eq_complete_setPc off s Iff.rfl).symm.trans h)

theorem effect_linkBranchIf {taken : Bool} {off : Imm16} (hd : destReg i = some linkReg) (hr : redirects i = true)
    (h : linkBranchIf taken off s = .next t) : Effect i s t :=
  effect_link hd hr ((branchIf_eq_complete_setPc off s.link Iff.rfl).symm.trans h)

/-- The cases are the rows of rule R23's table, by the operation the arm ends with. -/
theorem exec_effect (h : exec i s = .next t) : Effect i s t := by
  cases i with
  | add | sub | subu | addu | and | or | xor | nor | slt | sltu | addi | addiu | andi | ori | xori | slti | sltiu
  | lui => exact effect_writeResult rfl rfl h
  | sll | srl | sra | sllv | srlv | srav =>
    simp only [exec] at h
    exact effect_shiftBy rfl rfl h
  | lw rt rs imm =>
    obtain ⟨-, rfl⟩ := execLw_next rt rs imm s t h
    exact .write _ _ rfl rfl
  | sw rt rs imm =>
    obtain ⟨-, rfl⟩ := execSw_next rt rs imm s t h
    exact .store _ _ rfl
  | jr | j => exact effect_setPc rfl rfl h
  | jalr | jal => exact effect_link rfl rfl h
  | beq | bne | bgtz | blez | bgez | bltz => exact effect_branchIf rfl rfl h
  | bgezal | bltzal => exact effect_linkBranchIf rfl rfl h

/-- An instruction that is no branch or jump leaves the advanced pc (rule R26). -/
theorem exec_pc (h : exec i s = .next t) (hr : redirects i = false) : t.pc = s.pc := by
  cases exec_effect h with
  | write => rfl
  | store => rfl
  | move _ _ _ ht => simp [hr] at ht
  | moveAndLink _ _ _ ht => simp [hr] at ht

theorem exec_sameRegs (h : exec i s = .next t) (j : RegIdx) (hj : destReg i ≠ some j) : t.readReg j = s.readReg j := by
  cases exec_effect h with
  | write v _ hd => exact writeReg_readReg_ne s _ j v fun e => hj (hd.trans (congrArg some e.symm))
  | store => rfl
  | move => rfl
  | moveAndLink _ _ hd => exact link_readReg_ne s j fun e => hj (hd.trans (congrArg some e.symm))

theorem exec_sameMem (h : exec i s = .next t) (hi : ∀ rt rs imm, i ≠ .sw rt rs imm) : SameMem s t := by
  cases exec_effect h with
  | write | move | moveAndLink => exact fun _ => rfl
  | store _ _ hsw => exact absurd hsw (hi _ _ _)

theorem exec_sameRun (h : exec i s = .next t) : SameRun s t := by
  cases exec_effect h <;> exact ⟨rfl, rfl, rfl, rfl, rfl, rfl⟩

end

/-- Settles O38 from the effect of a completed instruction. -/
theorem registerWritesAreAsTabled : Obligations.RegisterWritesAreAsTabled := fun _ _ _ h =>
  ⟨exec_sameRegs h, exec_sameMem h, exec_sameRun h⟩

/-! ### In the run loop -/

section
variable {s t : State} {w : Word}

/-- An iteration after which the machine is still RUNNING is one that completed. -/
theorem step_completed (h : step s = .next t) (ht : t.run = .running) :
    ∃ u, runWord s.fetch s.advance = .next u ∧ Completed s.advance u ∧ t = u.traceReport := by
  obtain ⟨-, ⟨-, rfl⟩ | ⟨-, rfl⟩ | ⟨-, -, hu | ⟨k, n, -, rfl⟩⟩⟩ := step_cases s t h
  · cases ht
  · cases ht
  · exact hu
  · cases ht

theorem runWord_instr {i : Instr} (h : decode w = .instr i) (s : State) : runWord w s = exec i s := by
  rw [runWord, h]

/-- A word leaves the advanced pc, unless it is a branch or a jump that does not. -/
theorem runWord_pc (h : runWord w s = .next t)
    (hr : ∀ i, decode w = .instr i → redirects i = true → exec i s = .next t → t.pc = s.pc) : t.pc = s.pc := by
  cases hd : decode w with
  | instr i =>
    rw [runWord_instr hd] at h
    cases hi : redirects i with
    | true => exact hr i hd hi h
    | false => exact exec_pc h hi
  | unknown why =>
    rw [runWord_unknown hd] at h
    cases h
    rfl

end

/-- Settles O37: what ran, if it was no branch or jump, left the pc the fetch advanced. -/
theorem onlyBranchesAndJumpsRedirect : Obligations.OnlyBranchesAndJumpsRedirect := by
  intro s t _ h ht hpc
  obtain ⟨u, hu, -, rfl⟩ := step_completed h ht
  by_contra hno
  exact hpc (runWord_pc hu fun i hd hi => absurd ⟨i, hd, hi⟩ hno)

/-- Rule R298's table is rule R232 on rule R103's report. -/
theorem stagesOf_reportOf (i : Instr) : stagesOf (reportOf i) = stagesTable i := by
  cases i <;> rfl

theorem stagesOf_runWord {w : Word} {s t : State} (h : runWord w s = .next t) :
    stagesOf t.report = tabledStages (decode w) := by
  cases hd : decode w with
  | instr i =>
    rw [runWord_instr hd] at h
    rw [exec_report h, stagesOf_reportOf, tabledStages]
  | unknown why =>
    rw [runWord_unknown hd] at h
    rw [complete_report h]
    rfl

/-- Settles O36: the entries are the tracer's lines of the completed word's report. -/
theorem completedInstructionsAreTraced : Obligations.CompletedInstructionsAreTraced := by
  intro s t _ _ h ht
  obtain ⟨u, hu, hc, rfl⟩ := step_completed h ht
  obtain ⟨hcycle, hinstrNo, htrace⟩ : u.cycle = s.cycle ∧ u.instrNo = s.instrNo ∧ u.trace = s.trace :=
    ⟨hc.cycle, hc.instrNo, hc.trace⟩
  refine ⟨traceLines s.cycle s.instrNo (stagesOf u.report), ?_, ?_, ?_, ?_, ?_, ?_⟩
  · rw [State.traceReport_trace, hcycle, hinstrNo, htrace]
  · rw [traceLines_map_stage, stagesOf_runWord hu]
  · rw [traceLines_map_cycle, traceLines_length]
  · exact fun e he => instrNo_of_mem_traceLines _ _ _ he
  · rw [State.traceReport_cycle, hcycle, traceLines_length]
  · rw [State.traceReport_instrNo, hinstrNo]

end Sys2Proof.Machine

/-! ## What an instruction reads (rule R23) -/

namespace Sys2Proof.Machine

/-- Two answers are the same fault, or two next states with the same pc, memory, report and destination register. -/
def SameAnswer (d : Option RegIdx) (r₁ r₂ : Result) : Prop :=
  (∀ f, r₁ = .fault f ↔ r₂ = .fault f) ∧
  (∀ t₁, r₁ = .next t₁ → ∃ t₂, r₂ = .next t₂ ∧ t₁.pc = t₂.pc ∧ t₁.mem = t₂.mem ∧ t₁.report = t₂.report ∧
    ∀ e, d = some e → t₁.readReg e = t₂.readReg e)

theorem sameAnswer_fault (d : Option RegIdx) (f : Fault) : SameAnswer d (.fault f) (.fault f) :=
  ⟨fun _ => Iff.rfl, nofun⟩

theorem sameAnswer_complete {d : Option RegIdx} {m w : Bool} {t₁ t₂ : State} (hpc : t₁.pc = t₂.pc)
    (hmem : t₁.mem = t₂.mem) (hd : ∀ e, d = some e → t₁.readReg e = t₂.readReg e) :
    SameAnswer d (complete m w t₁) (complete m w t₂) := by
  refine ⟨fun f => iff_of_false nofun nofun, fun u h => ?_⟩
  cases h
  exact ⟨_, rfl, hpc, hmem, rfl, hd⟩

theorem sameAnswer_setPc {s₁ s₂ : State} {p₁ p₂ : Word} (hp : p₁ = p₂) (hmem : s₁.mem = s₂.mem) :
    SameAnswer none (complete false false (s₁.setPc p₁)) (complete false false (s₂.setPc p₂)) :=
  sameAnswer_complete hp hmem nofun

section
variable {s₁ s₂ : State} (hpc : s₁.pc = s₂.pc) (hmem : s₁.mem = s₂.mem)
include hpc hmem

/-- A register written with the same value reads the same, register 0 included. -/
theorem sameAnswer_writeReg (m w : Bool) (d : RegIdx) {v₁ v₂ : Word} (hv : v₁ = v₂) :
    SameAnswer (some d) (complete m w (s₁.writeReg d v₁)) (complete m w (s₂.writeReg d v₂)) := by
  refine sameAnswer_complete hpc hmem fun e he => ?_
  cases he
  rw [writeReg_readReg_self, writeReg_readReg_self, hv]

theorem sameAnswer_writeResult (d : RegIdx) {v₁ v₂ : Word} (hv : v₁ = v₂) :
    SameAnswer (some d) (writeResult d v₁ s₁) (writeResult d v₂ s₂) :=
  sameAnswer_writeReg hpc hmem false true d hv

theorem sameAnswer_shiftBy (op : Word → Nat → Word) (d b r : RegIdx) (hb : s₁.readReg b = s₂.readReg b)
    (hr : s₁.readReg r = s₂.readReg r) :
    SameAnswer (some d) (shiftBy (varAmount r s₁) op d b s₁) (shiftBy (varAmount r s₂) op d b s₂) := by
  rw [varAmount, varAmount, hr]
  cases shiftAmount Config.shiftRange (s₂.readReg r).toInt with
  | error f => exact sameAnswer_fault _ f
  | ok n => exact sameAnswer_writeResult hpc hmem d (by rw [hb])

theorem sameAnswer_link {p₁ p₂ : Word} (hp : p₁ = p₂) :
    SameAnswer (some linkReg) (complete false false (s₁.link.setPc p₁)) (complete false false (s₂.link.setPc p₂)) := by
  refine sameAnswer_complete hp hmem fun e he => ?_
  cases he
  rw [State.setPc_readReg, State.setPc_readReg, link_readReg_self, link_readReg_self, hpc]

theorem sameAnswer_branchIf (off : Imm16) {c₁ c₂ : Bool} (hc : c₁ = c₂) :
    SameAnswer none (branchIf c₁ off s₁) (branchIf c₂ off s₂) := by
  rw [branchIf_eq_complete_setPc off s₁ Iff.rfl, branchIf_eq_complete_setPc off s₂ Iff.rfl]
  exact sameAnswer_setPc (by rw [hc, hpc]) hmem

theorem sameAnswer_linkBranchIf (off : Imm16) {c₁ c₂ : Bool} (hc : c₁ = c₂) :
    SameAnswer (some linkReg) (linkBranchIf c₁ off s₁) (linkBranchIf c₂ off s₂) := by
  rw [linkBranchIf, linkBranchIf, branchIf_eq_complete_setPc off s₁.link Iff.rfl,
    branchIf_eq_complete_setPc off s₂.link Iff.rfl]
  exact sameAnswer_link hpc hmem (by rw [hc, State.link_pc, State.link_pc, hpc])

theorem sameAnswer_execLw (rt rs : RegIdx) (imm : Imm16) (hs : s₁.readReg rs = s₂.readReg rs) :
    SameAnswer (some rt) (execLw rt rs imm s₁) (execLw rt rs imm s₂) := by
  have hread : s₁.memRead (effectiveAddr rs imm s₁) = s₂.memRead (effectiveAddr rs imm s₂) := by
    rw [memRead_eq, memRead_eq, effectiveAddr, effectiveAddr, hs, hmem]
  rw [execLw, execLw, hread]
  cases s₂.memRead (effectiveAddr rs imm s₂) with
  | error f => exact sameAnswer_fault _ f
  | ok v => exact sameAnswer_writeReg hpc hmem true true rt rfl

theorem sameAnswer_execSw (rt rs : RegIdx) (imm : Imm16) (hs : s₁.readReg rs = s₂.readReg rs)
    (ht : s₁.readReg rt = s₂.readReg rt) :
    SameAnswer none (execSw rt rs imm s₁) (execSw rt rs imm s₂) := by
  rw [execSw, execSw, memWrite_eq, memWrite_eq, effectiveAddr, effectiveAddr, hs, ht, hmem]
  cases wordIndex (s₂.readReg rs + simm imm) with
  | error f => exact sameAnswer_fault _ f
  | ok k => exact sameAnswer_complete hpc rfl nofun

end

/-- Settles O39: each arm's values are functions of the registers of rule R23's read column, the pc and memory. -/
theorem readsOnlyTabledRegisters : Obligations.ReadsOnlyTabledRegisters := by
  intro i s₁ s₂ hregs hpc hmem
  change SameAnswer (destReg i) (exec i s₁) (exec i s₂)
  cases i with
  | add rd rs rt | sub rd rs rt | subu rd rs rt | addu rd rs rt | and rd rs rt | or rd rs rt | xor rd rs rt
  | nor rd rs rt | slt rd rs rt | sltu rd rs rt =>
    have hs := hregs rs (by simp [sourceRegs])
    have ht := hregs rt (by simp [sourceRegs])
    exact sameAnswer_writeResult hpc hmem rd (by rw [hs, ht])
  | addi rt rs imm | addiu rt rs imm | andi rt rs imm | ori rt rs imm | xori rt rs imm | slti rt rs imm
  | sltiu rt rs imm =>
    have hs := hregs rs (by simp [sourceRegs])
    exact sameAnswer_writeResult hpc hmem rt (by rw [hs])
  | lui rt imm => exact sameAnswer_writeResult hpc hmem rt rfl
  | sll rd rt sa =>
    rw [exec_sll, exec_sll]
    exact sameAnswer_writeResult hpc hmem rd (by rw [hregs rt (by simp [sourceRegs])])
  | sra rd rt sa =>
    exact sameAnswer_shiftBy hpc hmem _ rd rt 3#5 (hregs rt (by simp [sourceRegs])) (hregs 3#5 (by simp [sourceRegs]))
  | srl rd rt sa =>
    exact sameAnswer_shiftBy hpc hmem _ rd rt 2#5 (hregs rt (by simp [sourceRegs])) (hregs 2#5 (by simp [sourceRegs]))
  | sllv rd rt rs | srav rd rt rs | srlv rd rt rs =>
    exact sameAnswer_shiftBy hpc hmem _ rd rt rs (hregs rt (by simp [sourceRegs])) (hregs rs (by simp [sourceRegs]))
  | jr rs => exact sameAnswer_setPc (hregs rs (by simp [sourceRegs])) hmem
  | jalr rs => exact sameAnswer_link hpc hmem (hregs rs (by simp [sourceRegs]))
  | j target => exact sameAnswer_setPc (by rw [jumpTarget, jumpTarget, hpc]) hmem
  | jal target => exact sameAnswer_link hpc hmem (by rw [jumpTarget, jumpTarget, hpc])
  | lw rt rs imm => exact sameAnswer_execLw hpc hmem rt rs imm (hregs rs (by simp [sourceRegs]))
  | sw rt rs imm =>
    exact sameAnswer_execSw hpc hmem rt rs imm (hregs rs (by simp [sourceRegs])) (hregs rt (by simp [sourceRegs]))
  | beq rs rt off | bne rs rt off =>
    have hs := hregs rs (by simp [sourceRegs])
    have ht := hregs rt (by simp [sourceRegs])
    exact sameAnswer_branchIf hpc hmem off (by rw [hs, ht])
  | bgtz rs off | blez rs off | bgez rs off | bltz rs off =>
    exact sameAnswer_branchIf hpc hmem off (by rw [hregs rs (by simp [sourceRegs])])
  | bgezal rs off | bltzal rs off =>
    exact sameAnswer_linkBranchIf hpc hmem off (by rw [hregs rs (by simp [sourceRegs])])

/-! ## The fault table (rule R261) -/

/-- Rule R261's row for the shifts: the instructions that take their amount from a register, and the amount. -/
def ShiftsBy (d : Decoded) (s : State) (n : Int) : Prop :=
  (∃ rd rt sa, d = .instr (.srl rd rt sa) ∧ n = (s.readReg 2#5).toInt) ∨
  (∃ rd rt sa, d = .instr (.sra rd rt sa) ∧ n = (s.readReg 3#5).toInt) ∨
  (∃ rd rt rs, (d = .instr (.sllv rd rt rs) ∨ d = .instr (.srlv rd rt rs) ∨ d = .instr (.srav rd rt rs)) ∧
    n = (s.readReg rs).toInt)

section
variable {k : FaultKind} {n : Int} {s : State}

theorem execLw_raised {rt rs : RegIdx} {imm : Imm16} (h : execLw rt rs imm s = .fault (.raised k n)) :
    wordIndex (effectiveAddr rs imm s) = .error (.raised k n) := by
  rw [execLw, memRead_eq] at h
  cases hw : wordIndex (effectiveAddr rs imm s) with
  | error f =>
    rw [hw] at h
    cases h
    rfl
  | ok a =>
    rw [hw] at h
    cases h

theorem execSw_raised {rt rs : RegIdx} {imm : Imm16} (h : execSw rt rs imm s = .fault (.raised k n)) :
    wordIndex (effectiveAddr rs imm s) = .error (.raised k n) := by
  rw [execSw, memWrite_eq] at h
  cases hw : wordIndex (effectiveAddr rs imm s) with
  | error f =>
    rw [hw] at h
    cases h
    rfl
  | ok a =>
    rw [hw] at h
    cases h

theorem shiftBy_raised {r d b : RegIdx} {op : Word → Nat → Word}
    (h : shiftBy (varAmount r s) op d b s = .fault (.raised k n)) :
    k = .shiftOutOfRange ∧ ¬ (0 ≤ n ∧ n ≤ 31) ∧ n = (s.readReg r).toInt := by
  by_cases hr : 0 ≤ (s.readReg r).toInt ∧ (s.readReg r).toInt ≤ 31
  · rw [varAmount, shiftBy_ok _ op d b s hr] at h
    cases h
  · rw [varAmount, shiftBy_fault _ op d b s hr] at h
    cases h
    exact ⟨rfl, hr, rfl⟩

/-- The address check and the amounts of the shifts are the only sources of a raised fault. -/
theorem exec_raised {i : Instr} (h : exec i s = .fault (.raised k n)) :
    (∃ rt rs imm, (i = .lw rt rs imm ∨ i = .sw rt rs imm) ∧
      wordIndex (effectiveAddr rs imm s) = .error (.raised k n)) ∨
    (k = .shiftOutOfRange ∧ ¬ (0 ≤ n ∧ n ≤ 31) ∧ ShiftsBy (.instr i) s n) := by
  cases i with
  | add | sub | subu | addu | and | or | xor | nor | slt | sltu | addi | addiu | andi | ori | xori | slti | sltiu | lui
  | jr | jalr | j | jal | beq | bne | bgtz | blez | bgez | bltz | bgezal | bltzal => cases h
  | sll rd rt sa =>
    rw [exec_sll] at h
    cases h
  | srl rd rt sa =>
    obtain ⟨hk, hr, hn⟩ := shiftBy_raised ((exec_srl rd rt sa s).symm.trans h)
    exact .inr ⟨hk, hr, .inl ⟨rd, rt, sa, rfl, hn⟩⟩
  | sra rd rt sa =>
    obtain ⟨hk, hr, hn⟩ := shiftBy_raised ((exec_sra rd rt sa s).symm.trans h)
    exact .inr ⟨hk, hr, .inr (.inl ⟨rd, rt, sa, rfl, hn⟩)⟩
  | sllv rd rt rs | srlv rd rt rs | srav rd rt rs =>
    simp only [exec] at h
    obtain ⟨hk, hr, hn⟩ := shiftBy_raised h
    exact .inr ⟨hk, hr, .inr (.inr ⟨rd, rt, rs, by simp, hn⟩)⟩
  | lw rt rs imm => exact .inl ⟨rt, rs, imm, .inl rfl, execLw_raised h⟩
  | sw rt rs imm => exact .inl ⟨rt, rs, imm, .inr rfl, execSw_raised h⟩

/-- An amount out of range is raised by every instruction of the row. -/
theorem raises_of_shiftsBy {d : Decoded} (h : ShiftsBy d s n) (hr : ¬ (0 ≤ n ∧ n ≤ 31)) :
    ∃ i, d = .instr i ∧ Raises i .shiftOutOfRange n s := by
  obtain ⟨rd, rt, sa, hd, rfl⟩ | ⟨rd, rt, sa, hd, rfl⟩ | ⟨rd, rt, rs, hd | hd | hd, rfl⟩ := h
  · exact ⟨_, hd, raises_of_shift (exec_srl rd rt sa s) hr⟩
  · exact ⟨_, hd, raises_of_shift (exec_sra rd rt sa s) hr⟩
  all_goals exact ⟨_, hd, raises_of_shift rfl hr⟩

/-- Only an instruction raises: the no-op completes. -/
theorem runWord_raised {w : Word} {f : Fault} (h : runWord w s = .fault f) :
    ∃ i, decode w = .instr i ∧ exec i s = .fault f := by
  cases hd : decode w with
  | instr i => exact ⟨i, rfl, by rwa [runWord_instr hd] at h⟩
  | unknown why =>
    rw [runWord_unknown hd] at h
    cases h

theorem step_raised {i : Instr} (hrun : s.run = .running) (hin : s.InCode) (hd : decode s.fetch = .instr i)
    (h : Raises i k n s.advance) : step s = .next (s.takeFault k n) := by
  obtain ⟨h0, hL⟩ := hin
  rw [step_in_code s hrun h0 hL, runWord_instr hd, h, settle]

/-- What an instruction raises in the code is a row of the table; the pc's increment changes no register. -/
theorem faultCause_of_raised {i : Instr} (hin : s.InCode) (hd : decode s.fetch = .instr i)
    (h : exec i s.advance = .fault (.raised k n)) : FaultCause s n k := by
  rcases exec_raised h with ⟨rt, rs, imm, hi, hw⟩ | ⟨rfl, hr, hs⟩
  · have hdec : decode s.fetch = .instr (.lw rt rs imm) ∨ decode s.fetch = .instr (.sw rt rs imm) :=
      hi.imp (fun e => hd.trans (congrArg _ e)) (fun e => hd.trans (congrArg _ e))
    rcases wordIndex_cases (effectiveAddr rs imm s) with ⟨hmis, he⟩ | ⟨h4, hout, he⟩ | ⟨-, -, he⟩ <;>
      cases he.symm.trans hw
    · exact ⟨hin, rt, rs, imm, hdec, hmis, rfl⟩
    · exact ⟨hin, rt, rs, imm, hdec, h4, hout, rfl⟩
  · rw [← hd] at hs
    exact ⟨hin, hr, hs⟩

/-- Every row of the table is a fault of the step. -/
theorem step_of_faultCause (hrun : s.run = .running) (h : FaultCause s n k) : step s = .next (s.takeFault k n) := by
  cases k with
  | misalignedAccess =>
    obtain ⟨hin, rt, rs, imm, hd | hd, hmis, rfl⟩ := h
    · exact step_raised hrun hin hd (raises_lw_of_wordIndex_error rt (wordIndex_misaligned _ hmis))
    · exact step_raised hrun hin hd (raises_sw_of_wordIndex_error rt (wordIndex_misaligned _ hmis))
  | outOfBounds =>
    obtain ⟨hin, rt, rs, imm, hd | hd, h4, hout, rfl⟩ := h
    · exact step_raised hrun hin hd (raises_lw_of_wordIndex_error rt (wordIndex_outOfBounds _ h4 hout))
    · exact step_raised hrun hin hd (raises_sw_of_wordIndex_error rt (wordIndex_outOfBounds _ h4 hout))
  | shiftOutOfRange =>
    obtain ⟨hin, hr, hs⟩ := h
    obtain ⟨i, hd, hi⟩ := raises_of_shiftsBy (s := s.advance) hs hr
    exact step_raised hrun hin hd hi
  | pcOutOfBounds =>
    obtain ⟨hneg, rfl⟩ := h
    exact step_negative_pc s hrun hneg

end

/-- Settles O34: from the step back to the table by what can raise, and from each row to the step it stops. -/
theorem faultsExactlyAsTabled : Obligations.FaultsExactlyAsTabled := by
  refine ⟨fun s kind info hrun => ⟨?faults, fun h => ?caused⟩, rfl, rfl, rfl, rfl⟩
  case caused => exact ⟨_, step_of_faultCause hrun h, rfl, rfl⟩
  case faults =>
    rintro ⟨t, h, ht, hf⟩
    obtain ⟨-, ⟨-, rfl⟩ | ⟨hneg, rfl⟩ | ⟨h0, hL, ⟨u, -, hu, rfl⟩ | ⟨k, n, hraise, rfl⟩⟩⟩ := step_cases s t h
    · cases ht
    · cases hf
      exact ⟨hneg, rfl⟩
    · simp [hu.run, hrun] at ht
    · cases hf
      obtain ⟨i, hd, hi⟩ := runWord_raised hraise
      exact faultCause_of_raised ⟨h0, hL⟩ hd hi

end Sys2Proof.Machine

/-! ## One iteration of the run loop (rules R235, R236) -/

namespace Sys2Proof.Machine

section
variable {s t : State}

theorem code_getElem?_pc (h : s.InCode) : s.code[s.pc.toNat]? = some s.fetch := by
  obtain ⟨h0, hL⟩ := h
  have hpc := toNat_toInt_of_nonneg s.pc h0
  have hlt : s.pc.toNat < s.code.length := by
    rw [State.codeLen_eq] at hL
    omega
  rw [State.fetch, List.getD_eq_getElem?_getD, List.getElem?_eq_getElem hlt, Option.getD_some]

/-- A running machine always has a next state. -/
theorem exists_step (hrun : s.run = .running) : ∃ t, step s = .next t := by
  rw [step_running s hrun]
  split
  · exact ⟨_, rfl⟩
  split
  · exact ⟨_, rfl⟩
  rcases runWord_cases s.fetch s.advance with ⟨u, hu, -⟩ | ⟨k, n, hf⟩
  · exact ⟨_, by rw [hu, settle]⟩
  · exact ⟨_, by rw [hf, settle]⟩

theorem step_of_runWord (hrun : s.run = .running) (hin : s.InCode) (h : runWord s.fetch s.advance = .next t) :
    step s = .next t.traceReport := by
  rw [step_in_code s hrun hin.1 hin.2, h, settle]

theorem observe_halted (h : s.run = .halted) : s.observe = some (.halted s.trace s.finalDump) := by
  simp [State.observe, h]

theorem observe_running (h : s.run = .running) : s.observe = none := by
  simp [State.observe, h]

/-- A state that steps is RUNNING (rule R235). -/
theorem running_of_step (h : step s = .next t) : s.run = .running := (step_cases s t h).1

/-- HALTED is entered at the loop entry only (rule R236). -/
theorem step_halted_iff (h : step s = .next t) : t.run = .halted ↔ (s.codeLen : Int) ≤ s.pc.toInt := by
  have hL := Int.natCast_nonneg s.codeLen
  obtain ⟨hrun, ⟨hp, rfl⟩ | ⟨hp, rfl⟩ | ⟨-, hp, ⟨u, -, hu, rfl⟩ | ⟨k, n, -, rfl⟩⟩⟩ := step_cases s t h
  · exact iff_of_true rfl hp
  · exact iff_of_false (by simp) (by omega)
  · exact iff_of_false (by simp [hu.run, hrun]) (by omega)
  · exact iff_of_false (by simp) (by omega)

end

/-- Settles O30 from the step's cases; `advance` is the pc's increment. -/
theorem stepRunsDecodedInstruction : Obligations.StepRunsDecodedInstruction := by
  refine fun s hrun => ⟨fun hp => ⟨_, step_past_end s hrun hp, rfl, observe_halted rfl⟩, step_negative_pc s hrun,
    fun hin => ⟨code_getElem?_pc hin, ?_, ?_, ?_, exists_step hrun⟩⟩
  · exact fun i t hd h => step_of_runWord hrun hin ((runWord_instr hd _).trans h)
  · exact fun why t hd h => step_of_runWord hrun hin ((runWord_unknown hd _).trans h)
  · exact fun i kind info hd h => step_raised hrun hin hd h

/-- Settles O31: only a running state steps. -/
theorem stoppedMachinesHaveNoStep : Obligations.StoppedMachinesHaveNoStep := by
  refine ⟨fun im s h => ?loaded, fun s hs t h => ?stopped⟩
  case loaded =>
    obtain ⟨-, rfl⟩ := (load_eq_some_iff im s).1 h
    rfl
  case stopped => simp [running_of_step h] at hs

/-! ## Runs (rules R237, R239, R240) -/

section
variable {s t u : State} {j k : Nat}

theorem iterations_succ_of_next (h : iterations k s = .next t) : iterations (k + 1) s = step t := by
  rw [iterations, h]

theorem iterations_succ_next (h : iterations (k + 1) s = .next u) :
    ∃ t, iterations k s = .next t ∧ step t = .next u := by
  cases hk : iterations k s with
  | next t => exact ⟨t, rfl, (iterations_succ_of_next hk).symm.trans h⟩
  | fault f => simp [iterations, hk] at h
  | refused r => simp [iterations, hk] at h

/-- The induction over a run: what holds at the start, and after each of the first `k` iterations if before it, holds
after `k` iterations, all of which there are. -/
theorem iterations_induction {P : Nat → State → Prop} (h0 : P 0 s)
    (hstep : ∀ j t, j < k → iterations j s = .next t → P j t → ∃ u, step t = .next u ∧ P (j + 1) u) :
    ∃ t, iterations k s = .next t ∧ P k t := by
  induction k with
  | zero => exact ⟨s, rfl, h0⟩
  | succ k ih =>
    obtain ⟨t, ht, hP⟩ := ih fun j t hj => hstep j t (Nat.lt_succ_of_lt hj)
    obtain ⟨u, hu, hP'⟩ := hstep k t (Nat.lt_succ_self k) ht hP
    exact ⟨u, (iterations_succ_of_next ht).trans hu, hP'⟩

/-- Every state of a run but its last is RUNNING. -/
theorem running_before (h : iterations k s = .next u) (hj : j < k) :
    ∃ t, iterations j s = .next t ∧ t.run = .running := by
  induction k generalizing u with
  | zero => omega
  | succ k ih =>
    obtain ⟨t, ht, hstep⟩ := iterations_succ_next h
    rcases Nat.lt_succ_iff_lt_or_eq.1 hj with hj | rfl
    · exact ih ht hj
    · exact ⟨t, ht, running_of_step hstep⟩

/-- A run stops once. -/
theorem stop_unique (hk : iterations k s = .next t) (ht : t.run ≠ .running) (hj : iterations j s = .next u)
    (hu : u.run ≠ .running) : j = k ∧ u = t := by
  rcases Nat.lt_trichotomy j k with hlt | rfl | hlt
  · obtain ⟨v, hv, hrun⟩ := running_before hk hlt
    cases hv.symm.trans hj
    exact absurd hrun hu
  · exact ⟨rfl, Host.Outcome.next.inj (hj.symm.trans hk)⟩
  · obtain ⟨v, hv, hrun⟩ := running_before hj hlt
    cases hv.symm.trans hk
    exact absurd hrun ht

/-! ### The halt (rule R237) -/

/-- An iteration that neither halts nor faults goes on. -/
theorem step_running_of_not_stopped (h : step s = .next t) (hpc : s.pc.toInt < (s.codeLen : Int))
    (hf : t.run ≠ .faulted) : t.run = .running := by
  have hh := mt (step_halted_iff h).1 (not_le.2 hpc)
  cases hr : t.run with
  | running => rfl
  | halted => exact absurd hr hh
  | faulted => exact absurd hr hf

/-- A branch to itself: register 0 equals itself, and the offset -1 undoes the increment. -/
theorem step_self_branch (hrun : s.run = .running) (hin : s.InCode)
    (hd : decode s.fetch = .instr (.beq 0#5 0#5 0xFFFF#16)) :
    ∃ t, step s = .next t ∧ t.run = .running ∧ t.pc = s.pc ∧ t.code = s.code := by
  obtain ⟨u, hu, hpc, -, -, -, ⟨hcode, hr, -⟩, -⟩ := (branchOnEquality 0#5 0#5 0xFFFF#16 s.advance).2.2.1
  refine ⟨_, step_of_runWord hrun hin ((runWord_instr hd _).trans hu), hr.trans hrun, ?_, hcode⟩
  rw [State.traceReport_pc, hpc, if_pos rfl, ofInt_add_imm_toInt, State.advance_pc, BitVec.add_assoc,
    show 1#32 + simm 0xFFFF#16 = 0#32 from rfl, BitVec.add_zero]

end

/-- Settles O32: each clause is an induction over the run, its step the loop entry's test or the branch to itself. -/
theorem haltsExactlyPastTheCode : Obligations.HaltsExactlyPastTheCode := by
  refine ⟨fun s t _ h => step_halted_iff h, fun s hrun hall k => ?below, fun s hrun hin hd k => ?selfBranch⟩
  case below =>
    refine iterations_induction (P := fun _ t => t.run = .running) hrun fun j t _ ht htrun => ?_
    obtain ⟨u, hu⟩ := exists_step htrun
    obtain ⟨-, hf⟩ := hall (j + 1) u ((iterations_succ_of_next ht).trans hu)
    exact ⟨u, hu, step_running_of_not_stopped hu (hall j t ht).1 hf⟩
  case selfBranch =>
    obtain ⟨t, ht, hrun, hpc, -⟩ := iterations_induction (k := k)
      (P := fun _ t => t.run = .running ∧ t.pc = s.pc ∧ t.code = s.code) ⟨hrun, rfl, rfl⟩
      fun j t _ _ ⟨htrun, htpc, htcode⟩ => by
        have htin : t.InCode := by rwa [State.InCode, State.codeLen_eq, htpc, htcode]
        have htd : decode t.fetch = .instr (.beq 0#5 0#5 0xFFFF#16) := by rwa [State.fetch, htpc, htcode]
        obtain ⟨u, hu, hurun, hupc, hucode⟩ := step_self_branch htrun htin htd
        exact ⟨u, hu, hurun, hupc.trans htpc, hucode.trans htcode⟩
    exact ⟨t, ht, hrun, hpc⟩

/-! ### The three outcomes (rule R239) -/

theorem three_le_stagesOf_length (r : Report) : 3 ≤ (stagesOf r).length := by
  simp [stagesOf]

/-- Settles O47: either some iteration leaves a stopped machine, which is then the run's only one, or every iteration
completes and is traced. -/
theorem runsHaveOneOfThreeOutcomes : Obligations.RunsHaveOneOfThreeOutcomes := by
  intro s hrun
  by_cases hstop : ∃ k t u, iterations k s = .next t ∧ step t = .next u ∧ u.run ≠ .running
  · obtain ⟨k, t, u, ht, hu, hnot⟩ := hstop
    have hk : iterations (k + 1) s = .next u := (iterations_succ_of_next ht).trans hu
    cases hr : u.run with
    | running => exact absurd hr hnot
    | halted => exact .inl ⟨k + 1, u, hk, hr, observe_halted hr, fun j v => stop_unique hk hnot⟩
    | faulted =>
      obtain ⟨kind, info, rfl⟩ := step_faulted hu hr
      exact .inr (.inl ⟨k + 1, _, _, hk, hr, observe_takeFault t kind info, fun j v => stop_unique hk hnot⟩)
  · refine .inr (.inr fun k => ?_)
    obtain ⟨t, ht, htrun, hlen⟩ := iterations_induction (k := k)
      (P := fun k t => t.run = .running ∧ s.trace.length + 3 * k ≤ t.trace.length) ⟨hrun, le_refl _⟩
      fun j t _ ht ⟨htrun, hlen⟩ => by
        obtain ⟨u, hu⟩ := exists_step htrun
        have hurun : u.run = .running := by
          by_contra hnot
          exact hstop ⟨j, t, u, ht, hu, hnot⟩
        obtain ⟨v, -, hv, rfl⟩ := step_completed hu hurun
        have h3 := three_le_stagesOf_length v.report
        have htr : v.trace = t.trace := hv.trace
        exact ⟨_, hu, hurun, by
          rw [State.traceReport_trace, htr, List.length_append, traceLines_length]
          omega⟩
    exact ⟨t, ht, htrun, observe_running htrun, hlen⟩

/-! ### Straight-line programs (rule R240) -/

theorem toInt_ofNat_of_le {n : Nat} (h : n ≤ Config.codeMax) : (BitVec.ofNat 32 n).toInt = n := by
  have hn : (BitVec.ofNat 32 n).toNat = n := by
    rw [BitVec.toNat_ofNat, Nat.mod_eq_of_lt (by simp only [Config.codeMax] at h; omega)]
  rw [BitVec.toInt_eq_toNat_of_lt (by rw [hn]; simp only [Config.codeMax] at h; omega), hn]

/-- Where a straight-line run from `s` stands after `k` iterations. -/
structure StraightAt (s : State) (k : Nat) (t : State) : Prop where
  run : t.run = .running
  pc : t.pc = BitVec.ofNat 32 k
  instrNo : t.instrNo = s.instrNo + k
  code : t.code = s.code

section
variable {s t u : State} {k : Nat}

/-- The index after `k` iterations, against the length of the code (rule R28). -/
theorem StraightAt.pc_toInt (h : StraightAt s k t) (hs : s.Inv) (hk : k ≤ s.codeLen) : t.pc.toInt = k := by
  rw [h.pc, toInt_ofNat_of_le (hk.trans hs.code_fits)]

/-- One iteration below the end, if it does not fault and what it runs leaves the advanced pc. -/
theorem StraightAt.succ (h : StraightAt s k t) (hs : s.Inv) (hk : k < s.codeLen) (hu : step t = .next u)
    (hf : u.run ≠ .faulted)
    (hr : ∀ i v, decode t.fetch = .instr i → redirects i = true → exec i t.advance = .next v →
      v.pc = t.pc + 1#32) :
    StraightAt s (k + 1) u := by
  have hlt : t.pc.toInt < (t.codeLen : Int) := by
    rw [h.pc_toInt hs hk.le, State.codeLen_eq, h.code]
    exact_mod_cast hk
  have hurun := step_running_of_not_stopped hu hlt hf
  obtain ⟨v, hv, hc, rfl⟩ := step_completed hu hurun
  have hpc : v.pc = t.pc + 1#32 := runWord_pc hv fun i hd hi => hr i v hd hi
  exact {
    run := hurun
    pc := by rw [State.traceReport_pc, hpc, h.pc, ← BitVec.ofNat_add]
    instrNo := by rw [State.traceReport_instrNo, hc.instrNo, State.advance_instrNo, h.instrNo, Nat.add_assoc]
    code := hc.code.trans h.code }

end

/-- Settles O46: if no iteration faults, `StraightAt` holds from index to index, and at `L` the loop entry halts. -/
theorem straightLineProgramsRunToTheEnd : Obligations.StraightLineProgramsRunToTheEnd := by
  intro s hs hrun hpc hstraight
  by_cases hfault : ∃ k t, k ≤ s.codeLen ∧ iterations k s = .next t ∧ t.run = .faulted
  · exact .inl hfault
  have hat : ∀ k, k ≤ s.codeLen → ∃ t, iterations k s = .next t ∧ StraightAt s k t := fun k hk =>
    iterations_induction ⟨hrun, hpc, rfl, rfl⟩ fun j t hj ht h => by
      have hjL : j < s.codeLen := hj.trans_le hk
      obtain ⟨u, hu⟩ := exists_step h.run
      have hf : u.run ≠ .faulted := fun hf => hfault ⟨j + 1, u, hjL, (iterations_succ_of_next ht).trans hu, hf⟩
      exact ⟨u, hu, h.succ hs hjL hu hf fun i v => hstraight j t i v hjL ht⟩
  refine .inr ⟨fun k hk => ?running, ?halts⟩
  case running =>
    obtain ⟨t, ht, h⟩ := hat k hk
    exact ⟨t, ht, h.run, h.pc, h.instrNo⟩
  case halts =>
    obtain ⟨t, ht, h⟩ := hat s.codeLen le_rfl
    have hend : (t.codeLen : Int) ≤ t.pc.toInt := by
      rw [h.pc_toInt hs le_rfl, State.codeLen_eq, h.code, State.codeLen_eq]
    exact ⟨_, (iterations_succ_of_next ht).trans (step_past_end t h.run hend), rfl⟩

/-! ## The dump (rule R238) -/

theorem dumpEntry_eq_some_iff (key : Nat) (w : Word) (n : Nat) (v : Int) :
    dumpEntry key w = some (n, v) ↔ key = n ∧ w.toInt = v ∧ v ≠ 0 := by
  unfold dumpEntry
  split
  case isTrue h =>
    subst h
    exact iff_of_false nofun fun ⟨_, hv, hne⟩ => hne hv.symm
  case isFalse h =>
    have hne := (toInt_ne_zero_iff w).2 h
    simp only [Option.some.injEq, Prod.mk.injEq]
    exact ⟨fun ⟨hk, hv⟩ => ⟨hk, hv, hv ▸ hne⟩, fun ⟨hk, hv, _⟩ => ⟨hk, hv⟩⟩

theorem mem_dumpRegs_iff (s : State) (n : Nat) (v : Int) :
    (n, v) ∈ s.dumpRegs ↔ ∃ i : RegIdx, i.toNat = n ∧ (s.readReg i).toInt = v ∧ v ≠ 0 := by
  simp only [State.dumpRegs, List.mem_filterMap, List.mem_range, dumpEntry_eq_some_iff]
  constructor
  · rintro ⟨i, hi, rfl, hv⟩
    exact ⟨BitVec.ofNat 5 i, by rw [BitVec.toNat_ofNat, Nat.mod_eq_of_lt hi], hv⟩
  · rintro ⟨i, rfl, hv⟩
    exact ⟨i.toNat, i.isLt, rfl, by rwa [BitVec.ofNat_toNat, BitVec.setWidth_eq]⟩

theorem mem_dumpMem_iff (s : State) (a : Nat) (v : Int) :
    (a, v) ∈ s.dumpMem ↔ ∃ k, k < 250 ∧ a = 4 * k ∧ (s.mem.readWord (4 * k)).toInt = v ∧ v ≠ 0 := by
  simp only [State.dumpMem, List.mem_filterMap, List.mem_range, dumpEntry_eq_some_iff, wordAddr, eq_comm (a := a)]

/-- Lines made for rising keys stand in the order of their keys. -/
theorem pairwise_filterMap_dumpEntry (n : Nat) {key : Nat → Nat} (hkey : ∀ a b, a < b → key a < key b)
    (w : Nat → Word) :
    ((List.range n).filterMap fun i => dumpEntry (key i) (w i)).Pairwise fun p q => p.1 < q.1 := by
  rw [List.pairwise_filterMap]
  refine List.pairwise_lt_range.imp fun hab => ?_
  rintro ⟨_, _⟩ hp ⟨_, _⟩ hq
  obtain ⟨rfl, -⟩ := (dumpEntry_eq_some_iff _ _ _ _).1 hp
  obtain ⟨rfl, -⟩ := (dumpEntry_eq_some_iff _ _ _ _).1 hq
  exact hkey _ _ hab

theorem pairwise_dumpRegs (s : State) : s.dumpRegs.Pairwise fun p q => p.1 < q.1 :=
  pairwise_filterMap_dumpEntry 32 (key := id) (fun _ _ h => h) fun i => s.readReg (BitVec.ofNat 5 i)

theorem pairwise_dumpMem (s : State) : s.dumpMem.Pairwise fun p q => p.1 < q.1 :=
  pairwise_filterMap_dumpEntry Config.memWords (key := wordAddr) (fun _ _ h => Nat.mul_lt_mul_of_pos_left h (by decide))
    fun k => s.mem.readWord (wordAddr k)

theorem observe_ne_halted_of_faulted {s : State} (h : s.run = .faulted) (tr : List TraceEntry) (d : Dump) :
    s.observe ≠ some (.halted tr d) := by
  cases hf : s.fault <;> simp [State.observe, h, hf]

/-- Settles O48: the dump's lists filter rising keys by the nonzero values, and register 0 reads 0. -/
theorem dumpListsNonzeroAscending : Obligations.DumpListsNonzeroAscending := by
  refine fun s => ⟨observe_halted, observe_ne_halted_of_faulted, mem_dumpRegs_iff s, mem_dumpMem_iff s,
    pairwise_dumpRegs s, pairwise_dumpMem s, fun v hv => ?registerZero⟩
  case registerZero =>
    obtain ⟨i, hi, rfl, hne⟩ := (mem_dumpRegs_iff s 0 v).1 hv
    obtain rfl : i = 0#5 := BitVec.eq_of_toNat_eq hi
    exact hne (by rw [readReg_zero_eq, BitVec.toInt_zero])

end Sys2Proof.Machine
